-- ==== Sys2Proof/Word.lean ====
section
/-! DEFINITION. The word types of NCO-BJP: the 64-bit binary64 word of every register, operand and response
(00_scope.md R7 row `W`, 10_state.md R31) and the 72-bit command word (30_encoding.md R65). -/

namespace Sys2Proof

/-- A binary64 pattern: every register, operand and response is one (00_scope.md R7 row `W`, R10). -/
abbrev Word := BitVec 64

/-- A command word of the one format `CMD72` (30_encoding.md R65). -/
abbrev CmdWord := BitVec 72

end Sys2Proof
end

