-- ==== Sys2Proof/Syntax.lean ====
section
/-! DEFINITION. The commands of NCO-BJP, one constructor per row of spec/opcode_table.json (30_encoding.md R67), what a
decoder answers (R68), and the items of a run (10_state.md R38). -/

namespace Sys2Proof

/-- The ten commands. The four with an operand carry the whole 64-bit `DATA` field; the others ignore theirs
(30_encoding.md R66), so their syntax has none. -/
inductive Instr where
  /-- No operation (R85). -/
  | nop
  /-- Set the sample rate (R86). -/
  | setsr (rate : Word)
  /-- Set the frequency and recompute the phase increment (R87). -/
  | setf (freq : Word)
  /-- Overwrite the phase (R95). -/
  | setph (phase : Word)
  /-- Add an offset to the phase, without wrapping (R96). -/
  | offph (offset : Word)
  /-- Advance by one sample, wrap, shape and emit (R105). -/
  | proc
  /-- Read the raw phase (R125). -/
  | rdph
  /-- Read the frequency register (R126). -/
  | rdf
  /-- Read the sample-rate register (R127). -/
  | rdsr
  /-- Read the phase increment (R128). -/
  | rdd
  deriving DecidableEq, Repr

/-- What `decode` answers: a command, or `RESERVED(op)` by its opcode (30_encoding.md R68, R69). -/
inductive Decoded where
  | command (i : Instr)
  | reserved (op : BitVec 8)
  deriving DecidableEq, Repr

/-- One item of a run: a command word the block accepts, or the host's reset event (10_state.md R38,
70_reset_and_hazards.md R160). -/
inductive RunItem where
  | command (w : CmdWord)
  | reset
  deriving DecidableEq, Repr

end Sys2Proof
end

