-- ==== Sys2Proof/Machine/Operands.lean ====
section
/-! DEFINITION. The fields of the one command format `CMD72` (30_encoding.md R65, R66) and the assembly of a word from
them. There is one operand form: `DATA` whole, a 64-bit pattern, neither extended nor scaled (R66). -/

namespace Sys2Proof.Machine

/-- `OP = w[71:64]` (R65). -/
def opField (w : CmdWord) : BitVec 8 := w.extractLsb' 64 8

/-- `DATA = w[63:0]`, the operand's whole pattern (R65, R66). -/
def dataField (w : CmdWord) : Word := w.extractLsb' 0 64

/-- The word with the given fields (R65). -/
def commandWord (op : BitVec 8) (data : Word) : CmdWord := op ++ data

/-- The opcode of each command (30_encoding.md R67). -/
def opcode : Instr → BitVec 8
  | .nop => 0x00#8
  | .setsr _ => 0x01#8
  | .setf _ => 0x02#8
  | .setph _ => 0x03#8
  | .offph _ => 0x04#8
  | .proc => 0x05#8
  | .rdph => 0x06#8
  | .rdf => 0x07#8
  | .rdsr => 0x08#8
  | .rdd => 0x09#8

/-- The operand a command carries; `none` for the commands whose `DATA` is ignored (R66). -/
def operand : Instr → Option Word
  | .setsr d | .setf d | .setph d | .offph d => some d
  | .nop | .proc | .rdph | .rdf | .rdsr | .rdd => none

end Sys2Proof.Machine
end

