-- ==== Sys2Proof/WellFormed.lean ====
section
/-! DEFINITION. What the host may send. Every term of `Instr` is a legal command (30_encoding.md R66: every 64-bit
pattern is a legal operand), so the checks are on words and on runs: an assigned opcode (R69), the zero `DATA` the
assembler writes for a command without an operand (R82), and the host's duties 1, 3 and 4 of 60_exceptions.md R146. -/

namespace Sys2Proof

open Sys2Proof.Machine

/-- Every command with every operand is well formed (30_encoding.md R66). -/
def Instr.wellFormed : Instr → Bool
  | .nop | .setsr _ | .setf _ | .setph _ | .offph _ | .proc | .rdph | .rdf | .rdsr | .rdd => true

/-- The opcode is assigned, not one of the 246 reserved ones (30_encoding.md R67, R69). -/
def assignedWord (w : CmdWord) : Bool := decide ((opField w).toNat ≤ 0x09)

/-- The word is as an assembler writes it: assigned, and `DATA` zero where the command takes no operand (R82). -/
def canonicalWord (w : CmdWord) : Bool :=
  assignedWord w && (decide (0x01 ≤ (opField w).toNat ∧ (opField w).toNat ≤ 0x04) || dataField w == 0#64)

/-- Which of FREQ, SR and DELTA the run has written since the last reset (10_state.md R39). -/
structure Marks where
  freq : Bool
  sr : Bool
  delta : Bool
  deriving DecidableEq, Repr

/-- Whether a command reads only registers that have been written (60_exceptions.md R146 duties 1 and 3 and the
read-backs' own conditions, R126 to R128). -/
def Marks.allow (m : Marks) (op : Nat) : Bool :=
  match op with
  | 0x02 | 0x08 => m.sr
  | 0x05 | 0x09 => m.delta
  | 0x07 => m.freq
  | _ => true

/-- The marks after a command (R39): SETSR marks SR, SETF marks FREQ and DELTA. -/
def Marks.after (m : Marks) (op : Nat) : Marks :=
  match op with
  | 0x01 => { m with sr := true }
  | 0x02 => { m with freq := true, delta := true }
  | _ => m

/-- The host keeps duties 1, 3 and 4 of R146 over the rest of a run, given what is already written. -/
def orderedRun (m : Marks) : List RunItem → Bool
  | [] => true
  | .reset :: rest => orderedRun { freq := false, sr := false, delta := false } rest
  | .command w :: rest =>
    assignedWord w && m.allow (opField w).toNat && orderedRun (m.after (opField w).toNat) rest

end Sys2Proof
end

