-- ==== Sys2Proof/Decode.lean ====
section
/-! DEFINITION. The decoder, a total function of the opcode alone (30_encoding.md R68, R71), and the encoder beside it
(R65, R67, R82). -/

namespace Sys2Proof

open Sys2Proof.Machine

/-- `decode(w)` (R68). The opcodes 0x0A to 0xFF are reserved and answered by their number (R69); `DATA` never changes
which command a word is. -/
def decode (w : CmdWord) : Decoded :=
  match (opField w).toNat with
  | 0x00 => .command .nop
  | 0x01 => .command (.setsr (dataField w))
  | 0x02 => .command (.setf (dataField w))
  | 0x03 => .command (.setph (dataField w))
  | 0x04 => .command (.offph (dataField w))
  | 0x05 => .command .proc
  | 0x06 => .command .rdph
  | 0x07 => .command .rdf
  | 0x08 => .command .rdsr
  | 0x09 => .command .rdd
  | _ => .reserved (opField w)

/-- The word the assembler writes for a command: its opcode, and its operand or 0 (R67, R82). -/
def encode (i : Instr) : CmdWord := commandWord (opcode i) ((operand i).getD 0#64)

/-- The command word a row of the opcode table numbers as `w`: one parallel 72-bit word, so there is no byte order to
lay it out in (20_memory.md R52); bits above `nbits` are 0. -/
def tableWord (nbits w : Nat) : CmdWord := BitVec.ofNat 72 (w % 2 ^ nbits)

/-- The command this decoder reads from an opcode-table word; `none` where the opcode is reserved. -/
def decodeTableWord (nbits w : Nat) : Option Instr :=
  match decode (tableWord nbits w) with
  | .command i => some i
  | .reserved _ => none

end Sys2Proof
end

