-- ==== Sys2Proof/Machine/Binary64.lean ====
section
/-! DEFINITION. The binary64 primitives of 00_scope.md section 5 (R10, R14 to R19, R21), computed exactly.
Every finite binary64 value is a whole multiple of 2^-1074, the least subnormal. A value is therefore held as an
integer count of that unit (`scaled`), sums, products and quotients are formed exactly, and one function
(`roundMag`) narrows the exact result to the nearest pattern, ties to even. -/

namespace Sys2Proof.Machine

/-! ### The layout (R10) -/

/-- The sign, `v[63]` (R10). -/
def signBit (v : Word) : Bool := v.getLsbD 63

/-- The biased exponent, `v[62:52]` (R10). -/
def expField (v : Word) : Nat := v.toNat / 2 ^ 52 % 2 ^ 11

/-- The fraction, `v[51:0]` (R10). -/
def fracField (v : Word) : Nat := v.toNat % 2 ^ 52

/-- Exponent 0x7FF with a nonzero fraction (R10). -/
def isNaN (v : Word) : Bool := expField v == 0x7FF && fracField v != 0

/-- Exponent 0x7FF with fraction 0 (R10). -/
def isInf (v : Word) : Bool := expField v == 0x7FF && fracField v == 0

/-- Neither a NaN nor an infinity (R10). -/
def isFinite (v : Word) : Bool := expField v != 0x7FF

/-- +0 or -0: exponent 0 and fraction 0 (R10). -/
def isZero (v : Word) : Bool := expField v == 0 && fracField v == 0

/-- How many units of 2^-1074 make 1. Irreducible only so that no tactic writes its 324 digits out. -/
@[irreducible] def unitsPerOne : Nat := 2 ^ 1074

/-- The magnitude of a finite value in units of 2^-1074: a subnormal or zero is its fraction, a normal value carries
the hidden bit. An infinity reads as 2^2098 units, above every finite magnitude. -/
def magnitude (v : Word) : Nat :=
  if expField v = 0 then fracField v else (2 ^ 52 + fracField v) * 2 ^ (expField v - 1)

/-- The signed value in units of 2^-1074; both zeros give 0. An infinity gives plus or minus 2^2098, beyond every
finite value, which is what the ordered comparison (R19) needs of it. -/
def scaled (v : Word) : Int := if signBit v then -(magnitude v : Int) else magnitude v

/-- The real value of a finite pattern, as an exact rational (R10). -/
def value (v : Word) : ℚ := scaled v / unitsPerOne

/-- The pattern of a sign and a 63-bit magnitude pattern (exponent above fraction, R10). -/
def withSign (neg : Bool) (pattern : Nat) : Word := BitVec.ofNat 64 ((if neg then 2 ^ 63 else 0) + pattern)

/-- +0 or -0 (R10). -/
def zeroOf (neg : Bool) : Word := withSign neg 0

/-- +Inf or -Inf (R10). -/
def infOf (neg : Bool) : Word := withSign neg 0x7FF0000000000000

/-- `neg` of R15: flips bit 63. -/
def fneg (v : Word) : Word := v ^^^ 0x8000000000000000#64

/-- The NaN pattern a raw draw stands for (R18): the draw's own sign and fraction under the exponent 0x7FF, with the
one fraction that is no NaN (0) read as 1. Every NaN pattern is the image of some draw. -/
def nanPattern (raw : Word) : Word :=
  withSign (signBit raw) (0x7FF0000000000000 + (if fracField raw = 0 then 1 else fracField raw))

/-! ### The constants of 42_process.md -/

/-- 1.0 (R106, R84). -/
def fOne : Word := 0x3FF0000000000000#64

/-- 2.0 (R114). -/
def fTwo : Word := 0x4000000000000000#64

/-- `PI`, the binary64 value nearest to the circle constant (R114, R124). -/
def fPi : Word := 0x400921FB54442D18#64

/-- `TWO_PI`, the binary64 value nearest to twice it (R114). -/
def fTwoPi : Word := 0x401921FB54442D18#64

/-- `fmul(2.0, TWO_PI)`, the end of the range on which the sine's accuracy is stated (R111). -/
def fFourPi : Word := 0x402921FB54442D18#64

/-! ### Rounding (R14, R16, R17, R21) -/

/-- How far the quotient is shifted right so that 53 significant bits remain; 0 for the subnormals and the lowest
normal binade, whose spacing is the unit itself. -/
def roundShift (q : Nat) : Nat := if q < 2 ^ 53 then 0 else Nat.log2 q - 52

/-- `num / den` to the nearest integer, ties to even (R21). -/
def nearestEven (num den : Nat) : Nat :=
  if den < 2 * (num % den) ∨ (2 * (num % den) = den ∧ num / den % 2 = 1) then num / den + 1 else num / den

/-- The magnitude pattern nearest to `num / den` units of 2^-1074, ties to even; too large a result is infinity and
subnormal results are kept (R14, R16, R17, R21). A carry out of the significand moves into the exponent field, which
is the next binade's first value. -/
def roundMag (num den : Nat) : Nat :=
  let sh := roundShift (num / den)
  min (sh * 2 ^ 52 + nearestEven num (den * 2 ^ sh)) 0x7FF0000000000000

/-! ### The operations -/

/-- What a binary64 operation gives: a pattern the rules fix, or some NaN, whose bits R18 leaves to a free draw. -/
inductive FResult where
  | num (v : Word)
  | nan
  deriving DecidableEq, Repr

/-- `fadd` (R14). -/
def fadd (a b : Word) : FResult :=
  if isNaN a || isNaN b then .nan
  else if isInf a then (if isInf b && signBit a != signBit b then .nan else .num a)
  else if isInf b then .num b
  else if scaled a + scaled b = 0 then .num (zeroOf (signBit a && signBit b))
  else .num (withSign (decide (scaled a + scaled b < 0)) (roundMag (scaled a + scaled b).natAbs 1))

/-- `fsub(a, b)` is `fadd(a, neg(b))` (R15). -/
def fsub (a b : Word) : FResult := fadd a (fneg b)

/-- `fmul` (R16). -/
def fmul (a b : Word) : FResult :=
  let neg := signBit a ^^ signBit b
  if isNaN a || isNaN b then .nan
  else if isInf a || isInf b then (if isZero a || isZero b then .nan else .num (infOf neg))
  else .num (withSign neg (roundMag (magnitude a * magnitude b) unitsPerOne))

/-- `fdiv` (R17). -/
def fdiv (a b : Word) : FResult :=
  let neg := signBit a ^^ signBit b
  if isNaN a || isNaN b then .nan
  else if isInf a then (if isInf b then .nan else .num (infOf neg))
  else if isInf b then .num (zeroOf neg)
  else if isZero b then (if isZero a then .nan else .num (infOf neg))
  else .num (withSign neg (roundMag (magnitude a * unitsPerOne) (magnitude b)))

/-- `fgt(a, b)`, the ordered comparison `a > b` (R19): false on a NaN, blind to the sign of zero. -/
def fgt (a b : Word) : Bool := !isNaN a && !isNaN b && decide (scaled b < scaled a)

end Sys2Proof.Machine
end

