-- ==== Sys2Proof/Config.lean ====
section
/-! DEFINITION. What one instance fixes and what the spec leaves open: the implementation parameters of 00_scope.md R7
and the free draws of R18 (NaN bits), 70_reset_and_hazards.md R161 (registers after a reset event) and R171, R172
(latencies). Every open value is an opaque constant with no body, so no proof can see what it is and a claim holds for
every choice. Each takes first the instance it belongs to, since instances share nothing (60_exceptions.md R147, log
entry 21). `SHAPE`, the one parameter a program's meaning branches on, is plain data in State (log entry 3). -/

namespace Sys2Proof

open Sys2Proof.Machine

/-- Everything a claim may assume of the configuration function `SIN` with error `err`: 42_process.md R109 to R112 and
the sign rule R124. R113 (a pure function of its argument) is its type. -/
structure SinLaws (sin : Word → Word) (err : ℝ) : Prop where
  /-- R109: `SIN(+0) = +0`. -/
  at_zero : sin (zeroOf false) = zeroOf false
  /-- R109: `SIN(-0)` is a zero of either sign. -/
  at_negZero : isZero (sin (zeroOf true)) = true
  /-- R110: a finite argument gives a value in [-1, 1]. -/
  range : ∀ x, isFinite x = true → isFinite (sin x) = true ∧ |scaled (sin x)| ≤ unitsPerOne
  /-- R111: within `SIN_ERR` of the real sine while `|x| <= fmul(2.0, TWO_PI)`. -/
  accuracy : ∀ x, isFinite x = true → magnitude x ≤ magnitude fFourPi →
    |((value (sin x) : ℚ) : ℝ) - Real.sin ((value x : ℚ) : ℝ)| ≤ err
  /-- R112: a NaN or an infinity gives a NaN. -/
  nonfinite : ∀ x, isFinite x = false → isNaN (sin x) = true
  /-- R124: positive strictly between 0 and `PI`. -/
  positive : ∀ x, isFinite x = true → 0 < scaled x → scaled x < scaled fPi → 0 < scaled (sin x)
  /-- R124: negative strictly between `PI` and `TWO_PI`. -/
  negative : ∀ x, isFinite x = true → scaled fPi < scaled x → scaled x < scaled fTwoPi → scaled (sin x) < 0
  /-- R124: `SIN(PI) >= 0`. -/
  at_pi : 0 ≤ scaled (sin fPi)
  /-- R124: `SIN(TWO_PI) <= 0`. -/
  at_twoPi : scaled (sin fTwoPi) ≤ 0

/-- A shaper function an instance may be built with (R7 rows `SIN`, `SIN_ERR`, `SIN_IMPL`): any function that keeps
R109 to R113 and R124 for some `SIN_ERR <= 1e-3`, however it is realised (20_memory.md R51). -/
structure SinInstance where
  /-- `SIN` itself. -/
  eval : Word → Word
  /-- R7, R111: `SIN_ERR <= 1e-3`, and the laws hold with it. -/
  lawful : ∃ err : ℝ, err ≤ 1 / 1000 ∧ SinLaws eval err

/-- Each instance's own `SIN` (R7, R113, R147, 92_eei_decisions.md D14): for every instance an unknown member of the
functions the spec allows. The bracketed argument only tells Lean that the type is inhabited. -/
opaque Config.drawSin [Inhabited SinInstance] : Nat → SinInstance

/-- The raw bits of the n-th free draw an instance makes for a NaN result (R18); `nanPattern` reads them as a NaN
pattern. -/
opaque Config.nanDraw : Nat → Nat → Word

/-- What an instance's FREQ, SR and DELTA hold after the reset event that is its n-th free draw, by what each held before:
unspecified patterns (70_reset_and_hazards.md R161; the hardware may keep or lose them). Log entry 5. -/
opaque Config.freqAfterReset : Nat → Nat → Word → Word
@[inherit_doc Config.freqAfterReset] opaque Config.srAfterReset : Nat → Nat → Word → Word
@[inherit_doc Config.freqAfterReset] opaque Config.deltaAfterReset : Nat → Nat → Word → Word

/-- What an instance's hardware leaves in a register (by its number, R31) after the reserved opcode that is its n-th
free draw, by its opcode, its `DATA` and what the four registers held before: it may change any register (30_encoding.md
R69). DESIGN CHOICE, log entry 10: R69 does not say what the outcome may depend on. -/
opaque Config.reservedRegister : Nat → Nat → BitVec 8 → Word → List Word → Nat → Word

/-- The response, if any, that the hardware gives to that reserved opcode, by the same (30_encoding.md R69; log entry
10). -/
opaque Config.reservedResponse : Nat → Nat → BitVec 8 → Word → List Word → Option Word

/-- An instance's `LAT_MAX` less 1: the bound on every latency is finite and otherwise open (R7, R172). -/
opaque Config.latencySpread : Nat → Nat

/-- An instance's `LAT_MAX` (R7, R172); at least 1, since every command takes at least one cycle (R171). -/
def Config.latMax (inst : Nat) : Nat := Config.latencySpread inst + 1

/-- The raw draw behind the latency of the command accepted at the n-th clock edge; it may differ per command and per
instance (R171). -/
opaque Config.latencyDraw : Nat → Nat → CmdWord → Nat

/-- The raw draw behind the time to `cmd_ready` after a reset at the n-th clock edge (R163). -/
opaque Config.recoveryDraw : Nat → Nat → Nat

/-- `LAT_CMD` of the command accepted at the n-th clock edge: at least 1 and at most `LAT_MAX` (R171, R172). -/
def Config.latCmd (inst edge : Nat) (w : CmdWord) : Nat :=
  Config.latencyDraw inst edge w % Config.latMax inst + 1

/-- The cycles until `cmd_ready` rises after a reset at the n-th clock edge: at most `LAT_MAX` (R163). -/
def Config.recovery (inst edge : Nat) : Nat := Config.recoveryDraw inst edge % Config.latMax inst + 1

/-- What `rsp_data` carries at the n-th clock edge while `rsp_valid = 0`; R72 and R74 give it no value then. -/
opaque Config.idleData : Nat → Nat → Word

end Sys2Proof
end

