-- ==== Sys2Proof/Machine/State.lean ====
section
/-! DEFINITION. The state of NCO-BJP (10_state.md R31, R42), the model's faults (60_exceptions.md R137) and the state
right after reset (70_reset_and_hazards.md R161, R164). There is no memory and no program counter (20_memory.md R50,
10_state.md R38). -/

namespace Sys2Proof.Machine

/-- The four registers, numbered 0 to 3 in this order (10_state.md R31). -/
inductive Reg where
  | phase
  | freq
  | sr
  | delta
  deriving DecidableEq, Repr

/-- The build parameter `SHAPE` (00_scope.md R3, R7; 10_state.md R36). -/
inductive Shape where
  /-- The identity shaper (42_process.md R107). -/
  | ramp
  /-- `SIN(fmul(p, TWO_PI))` (42_process.md R108). -/
  | sine
  deriving DecidableEq, Repr

/-- The two readings 60_exceptions.md R137 gives of a command that reads a register nothing has written since reset, and
of a reserved opcode, one in each half of its table. They agree on every other step. Log entry 12. -/
inductive View where
  /-- What the hardware does: the command has its effect on what the registers hold, and nothing faults (R135, R137's last
  column). -/
  | hardware
  /-- The model of R39 and R137 to R139: the command raises a model fault and the run has failed. -/
  | checked
  deriving DecidableEq, Repr

/-- The closed list of model fault reasons (60_exceptions.md R137). Raised in the checked view alone, where the spec says
that its model stops (93_implementation_defined.md U2 to U6); on the hardware, and so from `State.reset`, the same
commands have their effect and nothing raises a fault (R135). Each is safe: that view gives no meaning where the hardware goes on with some value, so no claim about it can rest on that value. -/
inductive Fault where
  /-- `UNINIT(SR)`, raised in the checked view by SETF and RDSR while SR is unwritten (R87, R127). Safe. -/
  | uninitSr
  /-- `UNINIT(FREQ)`, raised in the checked view by RDF while FREQ is unwritten (R126). Safe. -/
  | uninitFreq
  /-- `UNINIT(DELTA)`, raised in the checked view by PROC and RDD while DELTA is unwritten (R105, R128). Safe. -/
  | uninitDelta
  /-- `RESERVED(op)`, raised in the checked view by a command word whose opcode is 0x0A to 0xFF (30_encoding.md R69). Safe. -/
  | reserved (op : BitVec 8)
  deriving DecidableEq, Repr

/-- Why the model refuses. The block refuses no command (60_exceptions.md R135), so no `step` answers a refusal; only
the pin level does, for a host outside the model. -/
inductive Refusal where
  /-- An instruction without a meaning yet; raised by no arm of `exec`. Safe. -/
  | notModelled (mnemonic : String)
  /-- A clock edge whose host breaks its side of the command handshake: it changes or withdraws an offered word before
  acceptance, or drives `cmd_valid` during `rst`. Raised by `Block.edge` alone: such a host has no move in the model
  (60_exceptions.md R146, 93_implementation_defined.md U17). Safe. -/
  | hostBreaksHandshake
  deriving DecidableEq, Repr

/-- What `flt` records: the reason and the stream position of the command that raised it (60_exceptions.md R137). -/
structure FaultMark where
  reason : Fault
  position : Nat
  deriving DecidableEq, Repr

/-- The model state: the tuple of 10_state.md R42, the run it is executing (R38), the instance's `SHAPE` (R36), and the
model's own fields: the view, which instance this is, and its count of free draws. -/
structure State where
  /-- PHASE, the phase accumulator (R31, R32). -/
  phase : Word
  /-- FREQ, the last operand of SETF (R31, R33). -/
  freq : Word
  /-- SR, the last operand of SETSR (R31, R34). -/
  sr : Word
  /-- DELTA, the phase advance per sample (R31, R35). -/
  delta : Word
  /-- `Wr[FREQ]` (R39). -/
  wrFreq : Bool
  /-- `Wr[SR]` (R39). -/
  wrSr : Bool
  /-- `Wr[DELTA]` (R39). -/
  wrDelta : Bool
  /-- The fault mark, `none` or one reason (R40). -/
  flt : Option FaultMark
  /-- The stream position: the index in `run` of the next item, with no width limit (R38). -/
  k : Nat
  /-- The response stream, oldest first (R41). -/
  out : List Word
  /-- The run: the host's list of commands and reset events (R38, 60_exceptions.md R149). -/
  run : List RunItem
  /-- The instance's shaper; no command and no reset changes it (R36). Log entry 3. -/
  shape : Shape
  /-- The MODEL's own field: which of R137's two readings this run is. No command and no reset changes it. Log entry 12. -/
  view : View
  /-- The MODEL's own field: which instance this is, so that each has its own `SIN` and its own free draws
  (60_exceptions.md R147). It is no identifier of the hardware; no command and no reset changes it. Log entry 21. -/
  inst : Nat
  /-- The MODEL's own field: how many free draws have been made (00_scope.md R18, R161). Log entry 7. -/
  draws : Nat
  deriving DecidableEq, Repr

/-- The start of a run, in a view, on the instance `inst`, built with `shape`: the state of R161 with `flt = none`,
`k = 0` and `out` empty (R164). R161 leaves FREQ, SR and DELTA unspecified; they hold +0 here (log entry 4). -/
def State.start (view : View) (inst : Nat) (shape : Shape) (run : List RunItem) : State where
  phase := 0#64
  freq := 0#64
  sr := 0#64
  delta := 0#64
  wrFreq := false
  wrSr := false
  wrDelta := false
  flt := none
  k := 0
  out := []
  run := run
  shape := shape
  view := view
  inst := inst
  draws := 0

/-- The machine right after reset, with no command delivered yet (R163), built with the source's default shaper
(00_scope.md R3; log entry 3). It is instance 0 (log entry 21) of the hardware: a command may read any register from here
on, and none stops it (60_exceptions.md R135; log entry 12). -/
def State.reset : State := State.start .hardware 0 .ramp []

end Sys2Proof.Machine
end

