-- ==== Sys2Proof/Machine/Flags.lean ====
section
/-! DEFINITION. The block has no flags, condition codes or status register (00_scope.md R20, 10_state.md R37), and no
command writes one. The Booleans the spec's model does keep are the written marks of 10_state.md R39; their reads and
writes stand here. -/

namespace Sys2Proof.Machine

/-- `Wr[X]`; PHASE has no mark because reset defines it (R39). -/
def State.isWritten (s : State) : Reg → Bool
  | .phase => true
  | .freq => s.wrFreq
  | .sr => s.wrSr
  | .delta => s.wrDelta

/-- Whether a command goes on to read `X`: always on the hardware, which has no marks and returns whatever the register
holds, and only once `X` is marked in the checked view (R39). -/
def State.mayRead (s : State) (r : Reg) : Bool :=
  match s.view with
  | .hardware => true
  | .checked => s.isWritten r

/-- `Wr[X] <- true` (R39). -/
def State.markWritten (s : State) : Reg → State
  | .phase => s
  | .freq => { s with wrFreq := true }
  | .sr => { s with wrSr := true }
  | .delta => { s with wrDelta := true }

/-- Reset clears all three marks (R39, R161). -/
def State.clearMarks (s : State) : State := { s with wrFreq := false, wrSr := false, wrDelta := false }

end Sys2Proof.Machine
end

