-- ==== Sys2Proof/Machine/Ops.lean ====
section
/-! DEFINITION. The named operations every meaning is written with: reading and writing the registers, emitting a
response, drawing a NaN, moving the stream position, taking a model fault, and the reset event. The block has no memory
(20_memory.md R50), no trap and no return from one (60_exceptions.md R141, R142): the fault of R138 is the only entry. -/

namespace Sys2Proof.Machine

/-- What a step of this machine answers. -/
abbrev StepResult := Host.Outcome State Fault Refusal

/-- `R[X]` (00_scope.md R12). -/
def State.readReg (s : State) : Reg → Word
  | .phase => s.phase
  | .freq => s.freq
  | .sr => s.sr
  | .delta => s.delta

/-- `R[X] <- v` (00_scope.md R12); the marks are written apart (10_state.md R39). -/
def State.writeReg (s : State) (r : Reg) (v : Word) : State :=
  match r with
  | .phase => { s with phase := v }
  | .freq => { s with freq := v }
  | .sr => { s with sr := v }
  | .delta => { s with delta := v }

/-- `emit(v)`: append to the response stream (00_scope.md R12, 10_state.md R41). -/
def State.emit (s : State) (v : Word) : State := { s with out := s.out ++ [v] }

/-- `k` moves by exactly 1 per executed item (10_state.md R38). -/
def State.advance (s : State) : State := { s with k := s.k + 1 }

/-- Goes on with the value of a binary64 operation. A NaN result is drawn afresh for that operation (00_scope.md R18),
and the draw is counted. -/
def State.withResult (s : State) (r : FResult) (body : Word → State → State) : State :=
  match r with
  | .num v => body v s
  | .nan => body (nanPattern (Config.nanDraw s.inst s.draws)) { s with draws := s.draws + 1 }

/-- Taking a model fault (60_exceptions.md R138): `flt` records the reason and the position, `k` stays at the faulting
command, no register is written and nothing is emitted. -/
def State.raise (s : State) (reason : Fault) : State := { s with flt := some { reason := reason, position := s.k } }

/-- A state with `flt = none` takes the step `body`; a state with a fault has no step (60_exceptions.md R138). -/
def State.whileSound (s : State) (body : State → State) : StepResult :=
  match s.flt with
  | none => .next (body s)
  | some mark => .fault mark.reason

/-- A command: it runs only with `flt = none` and, unless it faults, moves `k` by 1 (40_configuration.md,
introduction). `guard` is the register the checked view must find written, with the reason it raises otherwise (R137);
the hardware goes on with what that register holds. -/
def State.command (s : State) (guard : Option (Reg × Fault)) (body : State → State) : StepResult :=
  s.whileSound fun s =>
    match guard with
    | none => (body s).advance
    | some (r, reason) => if s.mayRead r then (body s).advance else s.raise reason

/-- The effect of reset on the registers and marks (70_reset_and_hazards.md R161): PHASE is +0, the marks are clear,
FREQ, SR and DELTA hold unspecified patterns, and `flt`, `out`, `SHAPE` stay (R162, 10_state.md R36, R40, R41). -/
def State.resetRegisters (s : State) : State :=
  { s.clearMarks with
    phase := zeroOf false
    freq := Config.freqAfterReset s.inst s.draws s.freq
    sr := Config.srAfterReset s.inst s.draws s.sr
    delta := Config.deltaAfterReset s.inst s.draws s.delta
    draws := s.draws + 1 }

/-- The host's reset event: an item of the run that executes as R161 and moves `k` by 1 (R160). -/
def State.resetEvent (s : State) : StepResult := s.whileSound fun s => s.resetRegisters.advance

/-- The four registers in their numbered order (10_state.md R31). -/
def State.registers (s : State) : List Word := [s.phase, s.freq, s.sr, s.delta]

/-- A reserved opcode on the hardware: any register may change and a response may or may not be emitted, so all of it is
a free draw (30_encoding.md R69). R69 does not say what the outcome may depend on. DESIGN CHOICE, log entry 10: the draw
is fixed by the instance, the draw count, the whole word and the four registers before it. -/
def State.hardwareReserved (s : State) (op : BitVec 8) (data : Word) : State :=
  { s with
    phase := Config.reservedRegister s.inst s.draws op data s.registers 0
    freq := Config.reservedRegister s.inst s.draws op data s.registers 1
    sr := Config.reservedRegister s.inst s.draws op data s.registers 2
    delta := Config.reservedRegister s.inst s.draws op data s.registers 3
    out := s.out ++ (Config.reservedResponse s.inst s.draws op data s.registers).toList
    draws := s.draws + 1 }

/-- A word with a reserved opcode: in the checked view nothing else is checked and `RESERVED(op)` is raised
(30_encoding.md R69, 60_exceptions.md R139); the hardware goes on in some way the spec does not describe. -/
def State.takeReserved (s : State) (op : BitVec 8) (data : Word) : StepResult :=
  s.whileSound fun s =>
    match s.view with
    | .hardware => (s.hardwareReserved op data).advance
    | .checked => s.raise (.reserved op)

/-- No item is left: the run has ended (60_exceptions.md R149), no command is offered, and the block holds everything
unchanged (R152). -/
def State.idle (s : State) : StepResult := s.whileSound fun s => s

/-- The item the next step executes, if the run has one (10_state.md R38). -/
def State.nextItem (s : State) : Option RunItem := s.run[s.k]?

/-- The run with its item at position `k` set to `item`. A position beyond the end, which no run from its start reaches,
is reached with NOP words. -/
def State.placeNext (s : State) (item : RunItem) : State :=
  { s with
    run := s.run.take s.k ++ List.replicate (s.k - s.run.length) (.command 0#72) ++ item :: s.run.drop (s.k + 1) }

end Sys2Proof.Machine
end

