-- ==== Sys2Proof/Machine/Configuration.lean ====
section
/-! DEFINITION. The configuration commands NOP, SETSR and SETF (40_configuration.md R85 to R87). -/

namespace Sys2Proof.Machine

/-- NOP: no effect (R85). -/
def execNop (s : State) : StepResult := s.command none fun s => s

/-- SETSR: `R[SR] <- DATA`, `Wr[SR] <- true`; DELTA is not recomputed (R86, 90_conflicts.md C1). -/
def execSetsr (rate : Word) (s : State) : StepResult :=
  s.command none fun s => (s.writeReg .sr rate).markWritten .sr

/-- SETF: in the checked view needs SR written; `R[FREQ] <- DATA`, `R[DELTA] <- fdiv(DATA, R[SR])`, and marks both (R87). -/
def execSetf (freq : Word) (s : State) : StepResult :=
  s.command (some (.sr, .uninitSr)) fun s =>
    (s.writeReg .freq freq).withResult (fdiv freq (s.readReg .sr)) fun d s =>
      ((s.writeReg .delta d).markWritten .freq).markWritten .delta

end Sys2Proof.Machine
end

