-- ==== Sys2Proof/Machine/Phase.lean ====
section
/-! DEFINITION. The phase commands SETPH and OFFPH (41_phase.md R95, R96). Neither wraps. -/

namespace Sys2Proof.Machine

/-- SETPH: `R[PHASE] <- DATA`, any pattern as given (R95). -/
def execSetph (phase : Word) (s : State) : StepResult := s.command none fun s => s.writeReg .phase phase

/-- OFFPH: `R[PHASE] <- fadd(R[PHASE], DATA)` (R96). -/
def execOffph (offset : Word) (s : State) : StepResult :=
  s.command none fun s => s.withResult (fadd (s.readReg .phase) offset) fun p s => s.writeReg .phase p

end Sys2Proof.Machine
end

