-- ==== Sys2Proof/Laws/Rounding.lean ====
section
/-! SUPPORT. Lemmas of the binary64 layout and of rounding: the fields and the value of a built pattern, the one order
of patterns and magnitudes, and the exactness of rounding a representable magnitude. -/

namespace Sys2Proof.Machine

/-! ### Fields of a pattern -/

theorem signBit_eq (v : Word) : signBit v = decide (2 ^ 63 ≤ v.toNat) := by
  have hv := v.isLt
  rw [signBit, BitVec.getLsbD, Nat.testBit_eq_decide_div_mod_eq]
  by_cases h : 2 ^ 63 ≤ v.toNat
  · rw [decide_eq_true h, decide_eq_true]; omega
  · rw [decide_eq_false h, decide_eq_false]; omega

/-- A built pattern is its sign above its magnitude pattern. -/
theorem withSign_toNat (neg : Bool) (p : Nat) (h : p < 2 ^ 63) :
    (withSign neg p).toNat = (if neg then 2 ^ 63 else 0) + p := by
  cases neg <;> (simp [withSign]; omega)

@[simp] theorem signBit_withSign (neg : Bool) (p : Nat) (h : p < 2 ^ 63) : signBit (withSign neg p) = neg := by
  rw [signBit_eq, withSign_toNat neg p h]
  cases neg
  · simp; omega
  · simp

@[simp] theorem expField_withSign (neg : Bool) (p : Nat) (h : p < 2 ^ 63) :
    expField (withSign neg p) = p / 2 ^ 52 := by
  rw [expField, withSign_toNat neg p h]
  cases neg <;> simp <;> omega

@[simp] theorem fracField_withSign (neg : Bool) (p : Nat) (h : p < 2 ^ 63) :
    fracField (withSign neg p) = p % 2 ^ 52 := by
  rw [fracField, withSign_toNat neg p h]
  cases neg
  · simp
  · simp; omega

/-! ### Patterns and magnitudes keep one order -/

/-- The magnitude of a 63-bit pattern. -/
def patternMagnitude (p : Nat) : Nat :=
  if p / 2 ^ 52 = 0 then p % 2 ^ 52 else (2 ^ 52 + p % 2 ^ 52) * 2 ^ (p / 2 ^ 52 - 1)

theorem patternMagnitude_succ (p : Nat) : patternMagnitude p < patternMagnitude (p + 1) := by
  unfold patternMagnitude
  rcases Nat.lt_or_ge (p % 2 ^ 52 + 1) (2 ^ 52) with h | h
  · have hd : (p + 1) / 2 ^ 52 = p / 2 ^ 52 := by omega
    have hm : (p + 1) % 2 ^ 52 = p % 2 ^ 52 + 1 := by omega
    rw [hd, hm]
    split
    · omega
    · exact Nat.mul_lt_mul_of_pos_right (by omega) (by positivity)
  · have hd : (p + 1) / 2 ^ 52 = p / 2 ^ 52 + 1 := by omega
    have hm : (p + 1) % 2 ^ 52 = 0 := by omega
    have lt : p % 2 ^ 52 < 2 ^ 52 := Nat.mod_lt _ (by norm_num)
    rw [hd, hm, if_neg (Nat.succ_ne_zero _), Nat.add_sub_cancel, Nat.add_zero]
    generalize p / 2 ^ 52 = e at *
    generalize p % 2 ^ 52 = f at *
    cases e with
    | zero => simpa using lt
    | succ e =>
      rw [if_neg (Nat.succ_ne_zero _), Nat.add_sub_cancel]
      calc (2 ^ 52 + f) * 2 ^ e < (2 ^ 52 * 2) * 2 ^ e := Nat.mul_lt_mul_of_pos_right (by omega) (by positivity)
        _ = 2 ^ 52 * 2 ^ (e + 1) := by rw [mul_assoc, ← Nat.pow_succ']

theorem patternMagnitude_strictMono : StrictMono patternMagnitude := strictMono_nat_of_lt_succ patternMagnitude_succ

theorem magnitude_eq (v : Word) : magnitude v = patternMagnitude (v.toNat % 2 ^ 63) := by
  have h1 : v.toNat % 2 ^ 63 / 2 ^ 52 = expField v := by unfold expField; omega
  have h2 : v.toNat % 2 ^ 63 % 2 ^ 52 = fracField v := by unfold fracField; omega
  simp only [magnitude, patternMagnitude, h1, h2]

theorem magnitude_withSign (neg : Bool) (p : Nat) (h : p < 2 ^ 63) :
    magnitude (withSign neg p) = patternMagnitude p := by
  rw [magnitude, expField_withSign neg p h, fracField_withSign neg p h, patternMagnitude]

theorem scaled_withSign (neg : Bool) (p : Nat) (h : p < 2 ^ 63) :
    scaled (withSign neg p) = (if neg then -1 else 1) * (patternMagnitude p : Int) := by
  rw [scaled, signBit_withSign neg p h, magnitude_withSign neg p h]
  cases neg <;> simp

theorem toNat_lt_of_scaled_pos (v : Word) (h : 0 < scaled v) : v.toNat < 2 ^ 63 := by
  by_contra hn
  rw [scaled, signBit_eq, decide_eq_true (by omega)] at h
  simp at h
  omega

theorem scaled_of_pos (v : Word) (h : 0 < scaled v) : scaled v = patternMagnitude v.toNat := by
  have lt := toNat_lt_of_scaled_pos v h
  rw [scaled, signBit_eq, decide_eq_false (by omega), magnitude_eq, Nat.mod_eq_of_lt lt]
  simp

/-- On positive values, patterns and values keep one order. -/
theorem scaled_lt_iff (a b : Word) (ha : 0 < scaled a) (hb : 0 < scaled b) :
    scaled a < scaled b ↔ a.toNat < b.toNat := by
  rw [scaled_of_pos a ha, scaled_of_pos b hb, Int.ofNat_lt, patternMagnitude_strictMono.lt_iff_lt]

/-! ### Rounding a representable magnitude changes nothing -/

theorem nearestEven_mul (m d : Nat) (hd : 0 < d) : nearestEven (m * d) d = m := by
  simp [nearestEven, Nat.mul_div_cancel _ hd, Nat.mul_mod_left, hd.ne]

theorem roundShift_normal (m e : Nat) (lo : 2 ^ 52 ≤ m) (hi : m < 2 ^ 53) : roundShift (m * 2 ^ e) = e := by
  unfold roundShift
  cases e with
  | zero => rw [pow_zero, Nat.mul_one, if_pos hi]
  | succ e =>
    have pos : 0 < 2 ^ e := by positivity
    have big : ¬ m * 2 ^ (e + 1) < 2 ^ 53 := by rw [pow_succ]; nlinarith
    have log : Nat.log2 (m * 2 ^ (e + 1)) = 52 + (e + 1) := by
      rw [Nat.log2_eq_log_two, Nat.log_eq_iff (Or.inl (by omega))]
      constructor
      · rw [pow_add]; exact Nat.mul_le_mul_right _ lo
      · rw [show 52 + (e + 1) + 1 = 53 + (e + 1) by omega, pow_add 2 53]
        exact Nat.mul_lt_mul_of_pos_right hi (by positivity)
    rw [if_neg big, log]; omega

/-- A normal magnitude is its own rounding. -/
theorem roundMag_normal (m e : Nat) (lo : 2 ^ 52 ≤ m) (hi : m < 2 ^ 53) (he : e < 2046) :
    roundMag (m * 2 ^ e) 1 = e * 2 ^ 52 + m := by
  simp only [roundMag, Nat.div_one, roundShift_normal m e lo hi, Nat.one_mul]
  rw [nearestEven_mul m _ (by positivity)]
  omega

theorem patternMagnitude_normal (m e : Nat) (lo : 2 ^ 52 ≤ m) (hi : m < 2 ^ 53) :
    patternMagnitude (e * 2 ^ 52 + m) = m * 2 ^ e := by
  have hd : (e * 2 ^ 52 + m) / 2 ^ 52 = e + 1 := by omega
  have hm : (e * 2 ^ 52 + m) % 2 ^ 52 = m - 2 ^ 52 := by omega
  rw [patternMagnitude, hd, hm, if_neg (Nat.succ_ne_zero _), Nat.add_sub_cancel,
    Nat.add_sub_cancel' lo]

end Sys2Proof.Machine
end

