-- ==== Sys2Proof/Machine/ReferenceSine.lean ====
section
/-! DEFINITION. One sine that keeps every law of `SIN` (42_process.md R109 to R113, R124): a Taylor sum narrowed to
multiples of 2^-11. It shows that the spec's constraints can be met, which is all the opaque `Config.drawSin` needs of
it. It is NOT the machine's `SIN`: nothing can be proved of the machine's from it (log entry 6). -/

namespace Sys2Proof.Machine

/-- The sum of the first `n` terms of the sine's Taylor series. -/
def sineSum (q : ℚ) : Nat → ℚ
  | 0 => 0
  | n + 1 => sineSum q n + (-1) ^ n * q ^ (2 * n + 1) / (2 * n + 1).factorial

/-- 2^-11 in units of 2^-1074. Irreducible only so that no tactic writes its digits out. -/
@[irreducible] def gridUnit : Nat := 2 ^ 1063

/-- A multiple of 2^-11 with a sign, as a binary64 pattern. -/
def gridWord (neg : Bool) (j : Nat) : Word := withSign neg (roundMag (j * gridUnit) 1)

/-- The sign R124 asks for on (0, TWO_PI], and the sum's own elsewhere. -/
def referenceSign (x : Word) (t : ℚ) : Bool :=
  if 0 < scaled x ∧ scaled x ≤ scaled fPi then false
  else if scaled fPi < scaled x ∧ scaled x ≤ scaled fTwoPi then true
  else decide (t < 0)

/-- The least number of 2048ths that is no less than `|t|`, kept between 1 and 2048. -/
def gridSteps (t : ℚ) : Nat := max 1 (min 2048 ⌈|t| * 2048⌉₊)

/-- The reference sine. -/
def referenceSin (x : Word) : Word :=
  if isFinite x = false then nanPattern 0
  else if isZero x then zeroOf false
  else if magnitude fFourPi < magnitude x then zeroOf false
  else gridWord (referenceSign x (sineSum (value x) 30)) (gridSteps (sineSum (value x) 30))

end Sys2Proof.Machine
end

