-- ==== Sys2Proof/Laws/ReferenceSine.lean ====
section
/-! SUPPORT. The reference sine keeps every law of `SIN`, so the type of lawful shaper functions is inhabited. -/

namespace Sys2Proof.Machine

/-! ### The Taylor sum is close to the real sine -/

theorem im_exp_sum (v : ℝ) (n : Nat) :
    (∑ m ∈ Finset.range (2 * n), ((v : ℂ) * Complex.I) ^ m / (m.factorial : ℂ)).im =
      ∑ i ∈ Finset.range n, (-1) ^ i * v ^ (2 * i + 1) / ((2 * i + 1).factorial : ℝ) := by
  induction n with
  | zero => simp
  | succ n ih =>
    have even : ((v : ℂ) * Complex.I) ^ (2 * n) / ((2 * n).factorial : ℂ) =
        (((-1) ^ n * v ^ (2 * n) / ((2 * n).factorial : ℝ) : ℝ) : ℂ) := by
      rw [mul_pow, pow_mul Complex.I, Complex.I_sq]; push_cast; ring
    have odd : ((v : ℂ) * Complex.I) ^ (2 * n + 1) / ((2 * n + 1).factorial : ℂ) =
        (((-1) ^ n * v ^ (2 * n + 1) / ((2 * n + 1).factorial : ℝ) : ℝ) : ℂ) * Complex.I := by
      rw [mul_pow, pow_succ Complex.I, pow_mul Complex.I, Complex.I_sq]; push_cast; ring
    rw [show 2 * (n + 1) = 2 * n + 1 + 1 by ring, Finset.sum_range_succ, Finset.sum_range_succ,
      Finset.sum_range_succ, Complex.add_im, Complex.add_im, ih, even, odd, Complex.ofReal_im,
      Complex.im_ofReal_mul, Complex.I_im, mul_one, add_zero]

theorem sineSum_eq (q : ℚ) (n : Nat) :
    ((sineSum q n : ℚ) : ℝ) =
      ∑ i ∈ Finset.range n, (-1) ^ i * (q : ℝ) ^ (2 * i + 1) / ((2 * i + 1).factorial : ℝ) := by
  induction n with
  | zero => simp [sineSum]
  | succ n ih => rw [Finset.sum_range_succ, ← ih, sineSum]; push_cast; ring

/-- Thirty terms are within 2^-12 of the sine on [-12.6, 12.6]. -/
theorem sineSum_close (q : ℚ) (h : |(q : ℝ)| ≤ 12.6) :
    |((sineSum q 30 : ℚ) : ℝ) - Real.sin q| ≤ 1 / 4096 := by
  have hn : ‖(((q : ℝ) : ℂ) * Complex.I)‖ = |(q : ℝ)| := by simp
  have bound := Complex.exp_bound' (x := ((q : ℝ) : ℂ) * Complex.I) (n := 2 * 30) (by
    rw [hn]; norm_num at h ⊢; linarith)
  rw [hn] at bound
  have sin_eq : Real.sin q = (Complex.exp (((q : ℝ) : ℂ) * Complex.I)).im := (Complex.exp_ofReal_mul_I_im _).symm
  rw [sineSum_eq, ← im_exp_sum, sin_eq, ← Complex.sub_im, ← abs_neg, ← Complex.neg_im, neg_sub]
  refine (Complex.abs_im_le_norm _).trans (bound.trans ?_)
  have hp : |(q : ℝ)| ^ (2 * 30) ≤ 12.6 ^ (2 * 30) := pow_le_pow_left₀ (abs_nonneg _) h _
  have hf : ((2 * 30).factorial : ℝ) = 8320987112741390144276341183223364380754172606361245952449277696409600000000000000 := by
    norm_num [Nat.factorial]
  rw [hf, div_mul_eq_mul_div, div_le_iff₀ (by norm_num)]
  norm_num at hp ⊢
  linarith

/-! ### The grid of multiples of 2^-11 -/

theorem unitsPerOne_eq : unitsPerOne = 2048 * gridUnit := by
  decide +kernel

theorem gridUnit_pos : 0 < gridUnit := by unfold gridUnit; positivity

theorem gridWord_exact (neg : Bool) (j : Nat) (lo : 1 ≤ j) (hi : j < 2049) :
    isFinite (gridWord neg j) = true ∧ scaled (gridWord neg j) = (if neg then -1 else 1) * (j * gridUnit : Nat) := by
  have hl : Nat.log 2 j ≤ 11 := by
    have := Nat.pow_log_le_self 2 (show j ≠ 0 by omega)
    by_contra h
    have := Nat.pow_le_pow_right (show 0 < 2 by omega) (show 12 ≤ Nat.log 2 j by omega)
    omega
  generalize hg : Nat.log 2 j = l at hl
  obtain ⟨lo', hi'⟩ := (Nat.log_eq_iff (Or.inr ⟨by omega, by omega⟩)).mp hg
  have split : j * gridUnit = (j * 2 ^ (52 - l)) * 2 ^ (1011 + l) := by
    have : gridUnit = 2 ^ (52 - l) * 2 ^ (1011 + l) := by
      unfold gridUnit; rw [← pow_add]; exact congrArg (2 ^ ·) (by omega)
    rw [this, mul_assoc]
  have mlo : 2 ^ 52 ≤ j * 2 ^ (52 - l) := by
    calc 2 ^ 52 = 2 ^ l * 2 ^ (52 - l) := by rw [← pow_add, Nat.add_sub_cancel' (by omega)]
      _ ≤ _ := Nat.mul_le_mul_right _ lo'
  have mhi : j * 2 ^ (52 - l) < 2 ^ 53 := by
    calc _ < 2 ^ (l + 1) * 2 ^ (52 - l) := Nat.mul_lt_mul_of_pos_right hi' (by positivity)
      _ = 2 ^ 53 := by rw [← pow_add, show l + 1 + (52 - l) = 53 by omega]
  have small : (1011 + l) * 2 ^ 52 + j * 2 ^ (52 - l) < 2 ^ 63 := by omega
  rw [gridWord, split, roundMag_normal _ _ mlo mhi (by omega)]
  refine ⟨?_, ?_⟩
  · rw [isFinite, expField_withSign _ _ small]; simp; omega
  · rw [scaled_withSign _ _ small, patternMagnitude_normal _ _ mlo mhi]

theorem gridSteps_pos (t : ℚ) : 1 ≤ gridSteps t := le_max_left _ _

theorem gridSteps_lt (t : ℚ) : gridSteps t < 2049 := by
  unfold gridSteps; omega

theorem gridWord_value (neg : Bool) (t : ℚ) :
    ((value (gridWord neg (gridSteps t)) : ℚ) : ℝ) = (if neg then -1 else 1) * ((gridSteps t : ℝ) / 2048) := by
  have pos : (0 : ℝ) < gridUnit := by exact_mod_cast gridUnit_pos
  rw [value, (gridWord_exact neg _ (gridSteps_pos t) (gridSteps_lt t)).2, unitsPerOne_eq]
  push_cast
  field_simp
  cases neg <;> simp

/-- The steps are within 2^-11 of the sum's size, for a sum no larger than 1 + 2^-11. -/
theorem gridSteps_close (t : ℚ) (h : |(t : ℝ)| ≤ 1 + 1 / 2048) :
    |(gridSteps t : ℝ) / 2048 - (|(t : ℝ)|)| ≤ 1 / 2048 := by
  have lower : |(t : ℝ)| * 2048 ≤ (⌈|t| * 2048⌉₊ : ℝ) := by
    exact_mod_cast Nat.le_ceil (|t| * 2048)
  have upper : (⌈|t| * 2048⌉₊ : ℝ) < |(t : ℝ)| * 2048 + 1 := by
    exact_mod_cast Nat.ceil_lt_add_one (mul_nonneg (abs_nonneg t) (by norm_num))
  have nonneg := abs_nonneg (t : ℝ)
  rw [abs_le]
  unfold gridSteps
  push_cast
  rcases max_cases (1 : ℝ) (min 2048 (⌈|t| * 2048⌉₊ : ℝ)) with ⟨e, _⟩ | ⟨e, _⟩ <;>
    rcases min_cases (2048 : ℝ) (⌈|t| * 2048⌉₊ : ℝ) with ⟨e', _⟩ | ⟨e', _⟩ <;>
    rw [e] <;> constructor <;> linarith

/-- A signed grid value is close to the sine when its sign agrees with the sine's or with the sum's. -/
theorem grid_close (neg : Bool) (t : ℚ) (s : ℝ) (hs : |s| ≤ 1) (ht : |(t : ℝ) - s| ≤ 1 / 4096)
    (sign : 0 ≤ (if neg then -1 else 1) * s ∨ 0 ≤ (if neg then -1 else 1) * (t : ℝ)) :
    |((value (gridWord neg (gridSteps t)) : ℚ) : ℝ) - s| ≤ 1 / 1000 := by
  have size : |(t : ℝ)| ≤ 1 + 1 / 2048 := by
    rw [abs_le] at *; constructor <;> linarith [hs.1, hs.2, ht.1, ht.2]
  have close := gridSteps_close t size
  rw [gridWord_value]
  rw [abs_le] at hs ht close ⊢
  rcases abs_cases (t : ℝ) with ⟨e, _⟩ | ⟨e, _⟩ <;> rw [e] at close <;>
    cases neg <;> simp only [if_true, if_false, Bool.false_eq_true] at * <;>
    rcases sign with sign | sign <;> constructor <;> linarith [hs.1, hs.2, ht.1, ht.2, close.1, close.2]

/-! ### The sign rule -/

theorem scaled_fPi_pos : 0 < scaled fPi := by decide +kernel

theorem scaled_afterPi_pos : 0 < scaled (0x400921FB54442D19#64) := by decide +kernel

/-- No binary64 value lies strictly between `PI` and the next pattern (R124, 93_implementation_defined.md G13). -/
theorem next_after_pi (x : Word) (h : scaled fPi < scaled x) :
    scaled (0x400921FB54442D19#64) ≤ scaled x := by
  have pos := scaled_fPi_pos.trans h
  rw [scaled_lt_iff _ _ scaled_fPi_pos pos] at h
  rw [← not_lt, scaled_lt_iff _ _ pos scaled_afterPi_pos, not_lt]
  exact h

theorem unitsPerOne_pos : (0 : ℚ) < unitsPerOne := by
  unfold unitsPerOne; positivity

theorem value_le_value {a b : Word} (h : scaled a ≤ scaled b) : value a ≤ value b := by
  unfold value
  gcongr

theorem abs_value_le {a b : Word} (h : |scaled a| ≤ scaled b) : |value a| ≤ value b := by
  have h' : |(scaled a : ℚ)| ≤ scaled b := by exact_mod_cast h
  rw [value, value, abs_div, abs_of_pos unitsPerOne_pos]
  gcongr

theorem value_fPi : value fPi = 884279719003555 / 281474976710656 := by
  have h : scaled fPi * 281474976710656 = 884279719003555 * (unitsPerOne : Int) := by decide +kernel
  have h' : (scaled fPi : ℚ) * 281474976710656 = 884279719003555 * unitsPerOne := by exact_mod_cast h
  rw [value, div_eq_div_iff unitsPerOne_pos.ne' (by norm_num)]; exact h'

theorem value_afterPi : value (0x400921FB54442D19#64) = 7074237752028441 / 2251799813685248 := by
  have h : scaled (0x400921FB54442D19#64) * 2251799813685248 = 7074237752028441 * (unitsPerOne : Int) := by
    decide +kernel
  have h' : (scaled (0x400921FB54442D19#64) : ℚ) * 2251799813685248 = 7074237752028441 * unitsPerOne := by
    exact_mod_cast h
  rw [value, div_eq_div_iff unitsPerOne_pos.ne' (by norm_num)]; exact h'

theorem value_fTwoPi : value fTwoPi = 2 * (884279719003555 / 281474976710656) := by
  have h : scaled fTwoPi = 2 * scaled fPi := by decide +kernel
  rw [← value_fPi, value, value, h]; push_cast; ring

theorem value_fFourPi : value fFourPi = 4 * (884279719003555 / 281474976710656) := by
  have h : scaled fFourPi = 4 * scaled fPi := by decide +kernel
  rw [← value_fPi, value, value, h]; push_cast; ring

theorem value_pos {x : Word} (h : 0 < scaled x) : 0 < value x := by
  unfold value; have := unitsPerOne_pos; positivity

/-- The real sine is positive on the values up to `PI`, which lies below the circle constant. -/
theorem sin_pos_of_scaled (x : Word) (lo : 0 < scaled x) (hi : scaled x ≤ scaled fPi) :
    0 ≤ Real.sin ((value x : ℚ) : ℝ) := by
  have h1 : ((value x : ℚ) : ℝ) ≤ ((value fPi : ℚ) : ℝ) := by exact_mod_cast value_le_value hi
  have h0 : (0 : ℝ) < ((value x : ℚ) : ℝ) := by exact_mod_cast value_pos lo
  rw [value_fPi] at h1
  have := Real.pi_gt_d20
  push_cast at h1
  exact Real.sin_nonneg_of_nonneg_of_le_pi h0.le (by norm_num at h1 this ⊢; linarith)

/-- The real sine is negative on the values above `PI` and up to `TWO_PI`. -/
theorem sin_neg_of_scaled (x : Word) (lo : scaled fPi < scaled x) (hi : scaled x ≤ scaled fTwoPi) :
    Real.sin ((value x : ℚ) : ℝ) ≤ 0 := by
  have h1 : ((value x : ℚ) : ℝ) ≤ ((value fTwoPi : ℚ) : ℝ) := by exact_mod_cast value_le_value hi
  have h0 : ((value (0x400921FB54442D19#64) : ℚ) : ℝ) ≤ ((value x : ℚ) : ℝ) := by
    exact_mod_cast value_le_value (next_after_pi x lo)
  rw [value_fTwoPi] at h1
  rw [value_afterPi] at h0
  have gt := Real.pi_gt_d20
  have lt := Real.pi_lt_d20
  push_cast at h0 h1
  have := Real.sin_nonpos_of_nonpos_of_neg_pi_le (x := ((value x : ℚ) : ℝ) - 2 * Real.pi)
    (by norm_num at h1 gt ⊢; linarith) (by norm_num at h0 lt ⊢; linarith)
  rwa [Real.sin_sub_two_pi] at this

/-- The chosen sign is the sine's own where R124 fixes it, and the sum's elsewhere. -/
theorem referenceSign_agrees (x : Word) (t : ℚ) :
    0 ≤ (if referenceSign x t then (-1 : ℝ) else 1) * Real.sin ((value x : ℚ) : ℝ) ∨
      0 ≤ (if referenceSign x t then (-1 : ℝ) else 1) * (t : ℝ) := by
  unfold referenceSign
  by_cases h1 : 0 < scaled x ∧ scaled x ≤ scaled fPi
  · left; simpa [if_pos h1] using sin_pos_of_scaled x h1.1 h1.2
  · rw [if_neg h1]
    by_cases h2 : scaled fPi < scaled x ∧ scaled x ≤ scaled fTwoPi
    · left; simpa [if_pos h2] using sin_neg_of_scaled x h2.1 h2.2
    · right
      rw [if_neg h2]
      by_cases h3 : t < 0
      · simpa [h3] using h3.le
      · simpa [h3] using not_lt.mp h3

theorem magnitude_le_of_scaled {a b : Word} (pos : 0 < scaled a) (h : scaled a ≤ scaled b) :
    magnitude a ≤ magnitude b := by
  have ha := scaled_of_pos a pos
  have hb := scaled_of_pos b (pos.trans_le h)
  rw [magnitude_eq, magnitude_eq, Nat.mod_eq_of_lt (toNat_lt_of_scaled_pos a pos),
    Nat.mod_eq_of_lt (toNat_lt_of_scaled_pos b (pos.trans_le h))]
  omega

theorem not_isZero_of_scaled_pos {x : Word} (h : 0 < scaled x) : isZero x = false := by
  by_contra hz
  rw [Bool.not_eq_false, isZero, Bool.and_eq_true, beq_iff_eq, beq_iff_eq] at hz
  have hm : magnitude x = 0 := by rw [magnitude, if_pos hz.1, hz.2]
  simp [scaled, hm] at h

theorem abs_scaled (x : Word) : |scaled x| = magnitude x := by
  unfold scaled; split <;> simp

/-- What the reference sine answers for a nonzero finite argument in the accurate range. -/
theorem referenceSin_inside (x : Word) (fin : isFinite x = true) (nz : isZero x = false)
    (hm : magnitude x ≤ magnitude fFourPi) :
    referenceSin x = gridWord (referenceSign x (sineSum (value x) 30)) (gridSteps (sineSum (value x) 30)) := by
  simp [referenceSin, fin, nz, hm]

/-- The reference sine of a positive argument up to `TWO_PI` is a grid word with the sign R124 names. -/
theorem referenceSin_signed (x : Word) (fin : isFinite x = true) (pos : 0 < scaled x)
    (hi : scaled x ≤ scaled fTwoPi) :
    0 < (if referenceSign x (sineSum (value x) 30) then -1 else 1) * scaled (referenceSin x) := by
  have far : scaled fTwoPi ≤ scaled fFourPi := by decide +kernel
  rw [referenceSin_inside x fin (not_isZero_of_scaled_pos pos) (magnitude_le_of_scaled pos (hi.trans far)),
    (gridWord_exact _ _ (gridSteps_pos _) (gridSteps_lt _)).2]
  have pos : 0 < gridSteps (sineSum (value x) 30) * gridUnit := Nat.mul_pos (gridSteps_pos _) gridUnit_pos
  generalize gridSteps (sineSum (value x) 30) * gridUnit = n at pos ⊢
  split <;> simp <;> omega

theorem isNaN_nanPattern (raw : Word) : isNaN (nanPattern raw) = true := by
  have lt : fracField raw < 2 ^ 52 := Nat.mod_lt _ (by norm_num)
  have small : 0x7FF0000000000000 + (if fracField raw = 0 then 1 else fracField raw) < 2 ^ 63 := by
    split <;> omega
  rw [nanPattern, isNaN, expField_withSign _ _ small, fracField_withSign _ _ small, Bool.and_eq_true, beq_iff_eq,
    bne_iff_ne]
  constructor <;> split <;> omega

theorem gridWord_range (neg : Bool) (j : Nat) (lo : 1 ≤ j) (hi : j < 2049) :
    |scaled (gridWord neg j)| ≤ unitsPerOne := by
  have le : j * gridUnit ≤ unitsPerOne := by rw [unitsPerOne_eq]; exact Nat.mul_le_mul_right _ (by omega)
  rw [(gridWord_exact neg j lo hi).2, abs_le]
  generalize j * gridUnit = n at le ⊢
  cases neg <;> simp <;> omega

theorem value_zeroOf (neg : Bool) : value (zeroOf neg) = 0 := by
  have h : scaled (zeroOf neg) = 0 := by cases neg <;> decide +kernel
  rw [value, h]; simp

theorem eq_zeroOf_of_isZero {x : Word} (h : isZero x = true) : value x = 0 := by
  rw [isZero, Bool.and_eq_true, beq_iff_eq, beq_iff_eq] at h
  have hm : magnitude x = 0 := by rw [magnitude, if_pos h.1, h.2]
  simp [value, scaled, hm]

/-- The reference sine is a lawful `SIN` with `SIN_ERR = 1e-3`. -/
theorem referenceSin_laws : SinLaws referenceSin (1 / 1000) where
  at_zero := by decide +kernel
  at_negZero := by decide +kernel
  range x fin := by
    have zero : isFinite (zeroOf false) = true ∧ |scaled (zeroOf false)| ≤ (unitsPerOne : Int) := by decide +kernel
    by_cases nz : isZero x = true
    · simpa [referenceSin, fin, nz] using zero
    · rw [Bool.not_eq_true] at nz
      by_cases hm : magnitude fFourPi < magnitude x
      · simpa [referenceSin, fin, nz, hm] using zero
      · rw [referenceSin_inside x fin nz (not_lt.mp hm)]
        exact ⟨(gridWord_exact _ _ (gridSteps_pos _) (gridSteps_lt _)).1,
          gridWord_range _ _ (gridSteps_pos _) (gridSteps_lt _)⟩
  accuracy x fin hm := by
    by_cases nz : isZero x = true
    · simp only [referenceSin, fin, nz, if_true, Bool.true_eq_false, if_false, value_zeroOf, eq_zeroOf_of_isZero nz]
      norm_num
    · rw [Bool.not_eq_true] at nz
      rw [referenceSin_inside x fin nz hm]
      refine grid_close _ _ _ (Real.abs_sin_le_one _) (sineSum_close _ ?_) (referenceSign_agrees x _)
      have four : |scaled fFourPi| = scaled fFourPi := by decide +kernel
      have le : |scaled x| ≤ scaled fFourPi := by
        rw [← four, abs_scaled, abs_scaled]; exact_mod_cast hm
      have le' := abs_value_le le
      rw [value_fFourPi] at le'
      have : |((value x : ℚ) : ℝ)| ≤ ((4 * (884279719003555 / 281474976710656) : ℚ) : ℝ) := by exact_mod_cast le'
      push_cast at this
      norm_num at this ⊢
      linarith
  nonfinite x fin := by simp [referenceSin, fin, isNaN_nanPattern]
  positive x fin lo hi := by
    have far : scaled fPi ≤ scaled fTwoPi := by decide +kernel
    have h := referenceSin_signed x fin lo (hi.le.trans far)
    simpa [referenceSign, lo, hi.le] using h
  negative x fin lo hi := by
    have h := referenceSin_signed x fin (scaled_fPi_pos.trans lo) hi.le
    simpa [referenceSign, lo, hi.le, not_le.mpr lo] using h
  at_pi := by
    have h := referenceSin_signed fPi (by decide +kernel) scaled_fPi_pos (by decide +kernel)
    simpa [referenceSign, scaled_fPi_pos] using h.le
  at_twoPi := by
    have lt : scaled fPi < scaled fTwoPi := by decide +kernel
    have h := referenceSin_signed fTwoPi (by decide +kernel) (scaled_fPi_pos.trans lt) le_rfl
    simpa [referenceSign, lt, not_le.mpr lt] using h.le

/-- A lawful shaper function exists: the spec's constraints on `SIN` can be met. -/
theorem referenceSin_lawful : ∃ err : ℝ, err ≤ 1 / 1000 ∧ SinLaws referenceSin err :=
  ⟨1 / 1000, le_rfl, referenceSin_laws⟩

end Sys2Proof.Machine
end

