-- ==== Sys2Proof/Machine/Process.lean ====
section
/-! DEFINITION. The sample command PROC: the single-subtract wrap, the two shapers and the command
(42_process.md R105 to R108, R113, R114). -/

namespace Sys2Proof.Machine

/-- An instance's own shaper function with its laws (R109 to R113, R124, 60_exceptions.md R147): one the spec allows, and
unknown. -/
def instanceSin (inst : Nat) : SinInstance := @Config.drawSin ⟨⟨referenceSin, referenceSin_lawful⟩⟩ inst

/-- `SIN(x)`: the instance's function of a finite argument (R109 to R111, R113, R124), and a NaN, drawn afresh for the
operation, for a NaN or an infinity (R112, 00_scope.md R18; log entry 8). -/
def fsin (inst : Nat) (x : Word) : FResult := if isFinite x then .num ((instanceSin inst).eval x) else .nan

/-- `wrap(s)`: one conditional subtraction of 1.0 under a strict test, never a modulo (R106). -/
def wrap (sum : Word) : FResult := if fgt sum fOne then fsub sum fOne else .num sum

/-- `shape(p)`: the identity for RAMP, bit for bit (R107), and `SIN(fmul(p, TWO_PI))` for SINE (R108, R114). -/
def State.withShaped (s : State) (p : Word) (body : Word → State → State) : State :=
  match s.shape with
  | .ramp => body p s
  | .sine => s.withResult (fmul p fTwoPi) fun x s => s.withResult (fsin s.inst x) body

/-- PROC: in the checked view needs DELTA written; advance, wrap, write PHASE, and emit the shaped new phase (R105). -/
def execProc (s : State) : StepResult :=
  s.command (some (.delta, .uninitDelta)) fun s =>
    s.withResult (fadd (s.readReg .phase) (s.readReg .delta)) fun sum s =>
      s.withResult (wrap sum) fun p s =>
        (s.writeReg .phase p).withShaped p fun y s => s.emit y

end Sys2Proof.Machine
end

