-- ==== Sys2Proof/Machine/Readback.lean ====
section
/-! DEFINITION. The read-back commands RDPH, RDF, RDSR and RDD (43_readback.md R125 to R128). None changes a register. -/

namespace Sys2Proof.Machine

/-- RDPH: `emit(R[PHASE])`; PHASE is always defined (R125). -/
def execRdph (s : State) : StepResult := s.command none fun s => s.emit (s.readReg .phase)

/-- RDF: in the checked view needs FREQ written; `emit(R[FREQ])` (R126). -/
def execRdf (s : State) : StepResult := s.command (some (.freq, .uninitFreq)) fun s => s.emit (s.readReg .freq)

/-- RDSR: in the checked view needs SR written; `emit(R[SR])` (R127). -/
def execRdsr (s : State) : StepResult := s.command (some (.sr, .uninitSr)) fun s => s.emit (s.readReg .sr)

/-- RDD: in the checked view needs DELTA written; `emit(R[DELTA])` (R128). -/
def execRdd (s : State) : StepResult := s.command (some (.delta, .uninitDelta)) fun s => s.emit (s.readReg .delta)

end Sys2Proof.Machine
end

