-- ==== Sys2Proof/Machine/Dispatch.lean ====
section
/-! DEFINITION. One arm per command, each one direct call of its meaning. -/

namespace Sys2Proof.Machine

def exec (i : Instr) (s : State) : Host.Outcome State Fault Refusal :=
  match i with
  | .nop => Sys2Proof.Machine.execNop s
  | .setsr rate => Sys2Proof.Machine.execSetsr rate s
  | .setf freq => Sys2Proof.Machine.execSetf freq s
  | .setph phase => Sys2Proof.Machine.execSetph phase s
  | .offph offset => Sys2Proof.Machine.execOffph offset s
  | .proc => Sys2Proof.Machine.execProc s
  | .rdph => Sys2Proof.Machine.execRdph s
  | .rdf => Sys2Proof.Machine.execRdf s
  | .rdsr => Sys2Proof.Machine.execRdsr s
  | .rdd => Sys2Proof.Machine.execRdd s

end Sys2Proof.Machine
end

