-- ==== Sys2Proof/Machine/Step.lean ====
section
/-! DEFINITION. One step: the block executes the next item of its run (10_state.md R38, 20_memory.md R57). Decoding
comes first (60_exceptions.md R139). -/

namespace Sys2Proof.Machine

/-- Executes the item at `k`: a command word as its decoding says, a reset event as R161, and nothing at the end of the
run. A state with a fault has no step (R138). -/
def step (s : State) : Host.Outcome State Fault Refusal :=
  match s.nextItem with
  | none => s.idle
  | some .reset => s.resetEvent
  | some (.command w) =>
    match decode w with
    | .command i => exec i s
    | .reserved op => s.takeReserved op (dataField w)

/-- The state whose next step executes the opcode-table word `w`: the host's run has that command word at position `k`
(30_encoding.md R77: the block does not fetch, the host delivers). Nothing else changes. Log entry 1 says how a program
comes to run. -/
def State.withFetchWord (s : State) (nbits w : Nat) : State := s.placeNext (.command (tableWord nbits w))

end Sys2Proof.Machine
end

