-- ==== Sys2Proof/Machine/Assembly.lean ====
section
/-! DEFINITION. The assembly syntax of 30_encoding.md section 5: literals (R80), lines and comments (R79), the words the
assembler writes (R82), pseudo-instructions and the reset directive (R83), and the listing form (R81). Text is a list of
characters. Log entry 20 names what R79 and R80 leave open. -/

namespace Sys2Proof.Machine

/-! ### Numbers (R80) -/

/-- A decimal digit's value. -/
def decDigit (c : Char) : Option Nat := if 48 ≤ c.toNat ∧ c.toNat ≤ 57 then some (c.toNat - 48) else none

/-- A hexadecimal digit's value; both letter cases are read. -/
def hexDigit (c : Char) : Option Nat :=
  if 48 ≤ c.toNat ∧ c.toNat ≤ 57 then some (c.toNat - 48)
  else if 65 ≤ c.toNat ∧ c.toNat ≤ 70 then some (c.toNat - 55)
  else if 97 ≤ c.toNat ∧ c.toNat ≤ 102 then some (c.toNat - 87)
  else none

/-- The decimal digits a text begins with, and the rest. -/
def takeDigits : List Char → List Nat × List Char
  | [] => ([], [])
  | c :: rest =>
    match decDigit c with
    | some d => (d :: (takeDigits rest).1, (takeDigits rest).2)
    | none => ([], c :: rest)

/-- The number written by digits in a base, the first the most significant. -/
def ofDigits (base : Nat) (ds : List Nat) : Nat := ds.foldl (fun n d => base * n + d) 0

/-- An optional sign: whether it is minus, and the rest. -/
def takeSign : List Char → Bool × List Char
  | '-' :: rest => (true, rest)
  | '+' :: rest => (false, rest)
  | rest => (false, rest)

/-- The binary64 value nearest to `mantissa * 10^exponent`, ties to even (R80 (a), 00_scope.md R11). -/
def decimalValue (neg : Bool) (mantissa : Nat) (exponent : Int) : Word :=
  withSign neg <|
    if 0 ≤ exponent then roundMag (mantissa * 10 ^ exponent.toNat * unitsPerOne) 1
    else roundMag (mantissa * unitsPerOne) (10 ^ (-exponent).toNat)

/-- The fraction of a decimal literal: `.` and digits, or nothing. -/
def takeFraction : List Char → Option (List Nat × List Char)
  | '.' :: rest => if (takeDigits rest).1.isEmpty then none else some (takeDigits rest)
  | rest => some ([], rest)

/-- The exponent of a decimal literal: `e` or `E`, an optional sign and digits, or nothing; it ends the literal. -/
def takeExponent : List Char → Option Int
  | [] => some 0
  | c :: rest =>
    if c = 'e' ∨ c = 'E' then
      let (neg, ds) := takeSign rest
      if (takeDigits ds).1.isEmpty || !(takeDigits ds).2.isEmpty then none
      else some ((if neg then -1 else 1) * (ofDigits 10 (takeDigits ds).1 : Int))
    else none

/-- A decimal floating literal (R80 (a)). -/
def decimalLiteral (text : List Char) : Option Word :=
  let (neg, rest) := takeSign text
  let whole := takeDigits rest
  if whole.1.isEmpty then none
  else do
    let fraction ← takeFraction whole.2
    let exponent ← takeExponent fraction.2
    some (decimalValue neg (ofDigits 10 (whole.1 ++ fraction.1)) (exponent - fraction.1.length))

/-- `0x` and exactly 16 hexadecimal digits: the pattern itself (R80 (b)). -/
def hexLiteral : List Char → Option Word
  | '0' :: 'x' :: ds =>
    if ds.length = 16 then (ds.mapM hexDigit).map fun ns => BitVec.ofNat 64 (ofDigits 16 ns) else none
  | _ => none

/-- An operand, in either form or as one of the words `inf` and `-inf` (R80). -/
def operandLiteral (text : List Char) : Option Word :=
  if text = "inf".toList then some (infOf false)
  else if text = "-inf".toList then some (infOf true)
  else hexLiteral text <|> decimalLiteral text

/-- A decimal integer, the operand of PROCN (R83). -/
def countLiteral (text : List Char) : Option Nat :=
  if (takeDigits text).1.isEmpty || !(takeDigits text).2.isEmpty then none
  else some (ofDigits 10 (takeDigits text).1)

/-! ### Lines (R79) -/

/-- The line without its comment (R79). -/
def stripComment (line : List Char) : List Char := line.takeWhile (· != ';')

/-- Adds a word under construction to the tokens after it. -/
def closeToken (word : List Char) (rest : List (List Char)) : List (List Char) :=
  if word.isEmpty then rest else word :: rest

/-- The tokens of a line: runs of characters between blanks, a comma being a token of its own. -/
def tokensFrom (word : List Char) : List Char → List (List Char)
  | [] => closeToken word []
  | c :: rest =>
    if c = ' ' ∨ c = '\t' then closeToken word (tokensFrom [] rest)
    else if c = ',' then closeToken word ([','] :: tokensFrom [] rest)
    else tokensFrom (word ++ [c]) rest

/-! ### Pseudo-instructions (R83) -/

/-- The item of a command (R65, R82). -/
def commandItem (i : Instr) : RunItem := .command (encode i)

/-- `CONFIG sr, f`: `SETSR sr` then `SETF f` (R83). -/
def configItems (rate freq : Word) : List RunItem := [commandItem (.setsr rate), commandItem (.setf freq)]

/-- `PREPARE sr`: `SETSR sr` then `SETF 0.25` (R83). -/
def prepareItems (rate : Word) : List RunItem := configItems rate 0x3FD0000000000000#64

/-- `PROCN n`: `n` copies of PROC (R83). -/
def procItems (n : Nat) : List RunItem := List.replicate n (commandItem .proc)

/-- A mnemonic that takes no operand (R67, R79), or the directive `.reset` (R83). -/
def plainLine (m : List Char) : Option (List RunItem) :=
  if m = "NOP".toList then some [commandItem .nop]
  else if m = "PROC".toList then some [commandItem .proc]
  else if m = "RDPH".toList then some [commandItem .rdph]
  else if m = "RDF".toList then some [commandItem .rdf]
  else if m = "RDSR".toList then some [commandItem .rdsr]
  else if m = "RDD".toList then some [commandItem .rdd]
  else if m = ".reset".toList then some [.reset]
  else none

/-- A mnemonic or pseudo-instruction with one operand (R80, R83). -/
def operandLine (m x : List Char) : Option (List RunItem) :=
  if m = "SETSR".toList then (operandLiteral x).map fun d => [commandItem (.setsr d)]
  else if m = "SETF".toList then (operandLiteral x).map fun d => [commandItem (.setf d)]
  else if m = "SETPH".toList then (operandLiteral x).map fun d => [commandItem (.setph d)]
  else if m = "OFFPH".toList then (operandLiteral x).map fun d => [commandItem (.offph d)]
  else if m = "PREPARE".toList then (operandLiteral x).map prepareItems
  else if m = "PROCN".toList then (countLiteral x).map procItems
  else none

/-- One line of assembly: the items it stands for, or `none` where it is malformed (R79 to R83). -/
def assembleLine (line : List Char) : Option (List RunItem) :=
  match tokensFrom [] (stripComment line) with
  | [] => some []
  | [m] => plainLine m
  | [m, x] => operandLine m x
  | [m, x, comma, y] =>
    if m = "CONFIG".toList ∧ comma = [','] then do
      let rate ← operandLiteral x
      let freq ← operandLiteral y
      some (configItems rate freq)
    else none
  | _ => none

/-- A program, one line per command (R79). -/
def assemble : List (List Char) → Option (List RunItem)
  | [] => some []
  | line :: rest => do
    let items ← assembleLine line
    let more ← assemble rest
    some (items ++ more)

/-! ### The listing form (R81) -/

/-- The hexadecimal digit of a value below 16, in capitals. -/
def hexChar (n : Nat) : Char := if n < 10 then Char.ofNat (48 + n) else Char.ofNat (55 + n)

/-- `n` written in `count` hexadecimal digits, the first the most significant. -/
def hexDigits (n : Nat) : Nat → List Char
  | 0 => []
  | count + 1 => hexChar (n / 16 ^ count % 16) :: hexDigits n count

/-- A command word as 2 hexadecimal digits of `OP`, an underscore and 16 of `DATA` (R81). -/
def listing (w : CmdWord) : List Char := hexDigits (opField w).toNat 2 ++ '_' :: hexDigits (dataField w).toNat 16

/-- Reads a listing back. -/
def readListing (text : List Char) : Option CmdWord :=
  if text.length = 19 ∧ text[2]? = some '_' then do
    let op ← (text.take 2).mapM hexDigit
    let data ← (text.drop 3).mapM hexDigit
    some (commandWord (BitVec.ofNat 8 (ofDigits 16 op)) (BitVec.ofNat 64 (ofDigits 16 data)))
  else none

end Sys2Proof.Machine
end

