-- ==== Sys2Proof/Machine/Hardware.lean ====
section
/-! DEFINITION. The hardware's view of any state (60_exceptions.md R135, R137's last column), beside the checked view's:
what one item of the run does when no written mark and no fault mark holds it back (10_state.md R39, R40). Log entries 10
and 12. -/

namespace Sys2Proof.Machine

/-- The state as the hardware sees it. -/
def State.asHardware (s : State) : State := { s with view := .hardware, flt := none }

/-- One item of the run on the hardware (R135). -/
def hardwareStep (s : State) : StepResult := step s.asHardware

end Sys2Proof.Machine
end

