-- ==== Sys2Proof/Machine/Port.lean ====
section
/-! DEFINITION. The physical interface (30_encoding.md R72 to R78): one rising edge of `clk` at a time, around the
command-level machine of Step.lean. A command is accepted, computed, and finished once its response is delivered (R75);
only then do its effects join the core's run. Latencies are free draws within `LAT_MAX` (70_reset_and_hazards.md R171,
R172). A host that breaks its side of the handshake has no move: the edge is refused (60_exceptions.md R146,
93_implementation_defined.md U17). `step` itself models no time (R171). Log entries 15 to 19. -/

namespace Sys2Proof.Machine

/-- The block's inputs at an edge (R72). -/
structure HostPins where
  rst : Bool
  cmdValid : Bool
  cmdWord : CmdWord
  rspReady : Bool
  deriving DecidableEq, Repr

/-- The block's outputs in the cycle before an edge (R72). -/
structure BlockPins where
  cmdReady : Bool
  rspValid : Bool
  rspData : Word
  deriving DecidableEq, Repr

/-- What the block is doing. At most one command is in it at a time (R75). -/
inductive Stage where
  /-- After a reset, before `cmd_ready` rises: at most `left + 1` edges more (R163). -/
  | recovering (left : Nat)
  /-- `cmd_ready = 1`: waiting for a command, for as long as none is offered (60_exceptions.md R152). -/
  | ready
  /-- A command `w` is in the block: `after` is the core once it has finished, `response` what it emits, `left` the
  edges before the last one. With a response and `left = 0`, `rsp_valid = 1` (R74, R75). -/
  | working (w : CmdWord) (after : State) (response : Option Word) (left : Nat)
  deriving DecidableEq, Repr

/-- The block: the command-level state of every finished command, the command in it if any, the host's standing offer,
and the edges counted (a free draw's index, not a hardware counter, 60_exceptions.md R148). -/
structure Block where
  core : State
  stage : Stage
  /-- The word the host offered at the last edge and the block did not accept. The MODEL's own record of the host's duty
  to keep it stable (R73); the block stores no offer (R77). -/
  offer : Option CmdWord
  edges : Nat
  deriving DecidableEq, Repr

/-- The outputs (R72). While `rst = 1` nothing is ready and nothing is valid (R76). Whenever `rsp_valid = 0`, in reset with
a response waiting too, `rsp_data` is a free draw: R72, R74 and R76 give it no value then. DESIGN CHOICE of form, log
entry 18. -/
def Block.pins (b : Block) (rst : Bool) : BlockPins :=
  match b.stage with
  | .ready => { cmdReady := !rst, rspValid := false, rspData := Config.idleData b.core.inst b.edges }
  | .working _ _ (some v) 0 =>
    { cmdReady := false, rspValid := !rst, rspData := if rst then Config.idleData b.core.inst b.edges else v }
  | .recovering _ | .working _ _ _ _ =>
    { cmdReady := false, rspValid := false, rspData := Config.idleData b.core.inst b.edges }

/-- The core's run goes on with one more item, and the core executes it: the run is the sequence of finished commands
and reset events (30_encoding.md R77). -/
def State.extend (s : State) (item : RunItem) : StepResult := step (s.placeNext item)

/-- The response a command added to the stream, if it added one (R78: at most one). -/
def newResponse (before after : State) : Option Word := after.out[before.out.length]?

/-- How many free draws the block has made, those of the command in it included. -/
def Block.drawsMade (b : Block) : Nat :=
  match b.stage with
  | .working _ after _ _ => after.draws
  | .recovering _ | .ready => b.core.draws

/-- A rising edge with `rst = 1`: the reset event; a command in the block is abandoned with its undelivered response,
and what was delivered stays (70_reset_and_hazards.md R160 to R162). The abandoned command's free draws stay used: its
response may have been seen on `rsp_data`, and R18 ties no later NaN to it. DESIGN CHOICE, log entry 7. -/
def Block.resetEdge (b : Block) : Host.Outcome Block Fault Refusal :=
  match { b.core with draws := b.drawsMade }.extend .reset with
  | .next core =>
    .next { b with core := core, stage := .recovering (Config.recovery b.core.inst b.edges - 1), edges := b.edges + 1 }
  | .fault r => .fault r
  | .refused r => .refused r

/-- A rising edge that accepts the command `w` (R73): its outcome is computed from the core, and it stays in the block
for `LAT_CMD` edges (R171). -/
def Block.acceptEdge (b : Block) (w : CmdWord) : Host.Outcome Block Fault Refusal :=
  match b.core.extend (.command w) with
  | .next after =>
    .next { b with
      stage := .working w after (newResponse b.core after) (Config.latCmd b.core.inst b.edges w - 1)
      edges := b.edges + 1 }
  | .fault r => .fault r
  | .refused r => .refused r

/-- A rising edge with `rst = 0`, by what the block is doing (R73 to R75). -/
def Block.workEdge (b : Block) (h : HostPins) : Host.Outcome Block Fault Refusal :=
  match b.stage with
  | .recovering 0 => .next { b with stage := .ready, edges := b.edges + 1 }
  | .recovering (left + 1) => .next { b with stage := .recovering left, edges := b.edges + 1 }
  | .ready => if h.cmdValid then b.acceptEdge h.cmdWord else .next { b with edges := b.edges + 1 }
  | .working w after response (left + 1) =>
    .next { b with stage := .working w after response left, edges := b.edges + 1 }
  | .working _ after none 0 => .next { b with core := after, stage := .ready, edges := b.edges + 1 }
  | .working _ after (some _) 0 =>
    if h.rspReady then .next { b with core := after, stage := .ready, edges := b.edges + 1 }
    else .next { b with edges := b.edges + 1 }

/-- The host's side of the handshake at an edge: during reset it offers nothing, and otherwise a standing offer stays,
with the same word (R73, 60_exceptions.md R146 duty 5, 93_implementation_defined.md U17). -/
def hostHolds (offer : Option CmdWord) (h : HostPins) : Bool :=
  if h.rst then !h.cmdValid
  else match offer with
    | none => true
    | some w => h.cmdValid && h.cmdWord == w

/-- The offer that stands after an edge: the word offered there, unless the block accepts it (R73) or the host resets
(log entry 17). -/
def Block.standingOffer (b : Block) (h : HostPins) : Option CmdWord :=
  if !h.rst && h.cmdValid && !(b.pins h.rst).cmdReady then some h.cmdWord else none

/-- One rising edge of `clk` (R72). A faulted core has no step (60_exceptions.md R138), and a host that breaks the
handshake has no move (R146). -/
def Block.edge (b : Block) (h : HostPins) : Host.Outcome Block Fault Refusal :=
  match b.core.flt with
  | some mark => .fault mark.reason
  | none =>
    if hostHolds b.offer h then
      let offered := { b with offer := b.standingOffer h }
      if h.rst then offered.resetEdge else offered.workEdge h
    else .refused .hostBreaksHandshake

/-- The block right after its first reset, with nothing offered yet (70_reset_and_hazards.md R163, R164). -/
def Block.start (view : View) (inst : Nat) (shape : Shape) : Block where
  core := State.start view inst shape []
  stage := .recovering (Config.recovery inst 0 - 1)
  offer := none
  edges := 1

/-- A run of edges, one entry per edge, stopping at the first fault or refusal. -/
def Block.runEdges (b : Block) : List HostPins → Host.Outcome Block Fault Refusal
  | [] => .next b
  | h :: rest =>
    match b.edge h with
    | .next b' => b'.runEdges rest
    | .fault r => .fault r
    | .refused r => .refused r

end Sys2Proof.Machine
end

