-- ==== Sys2Proof/Machine/Instances.lean ====
section
/-! DEFINITION. Several instances side by side (60_exceptions.md R147): each is a State (or, at the pin level, a Block) of
its own with its own `inst`, and whoever drives one moves that one alone. Log entry 21. -/

namespace Sys2Proof.Machine

/-- One move of the instance at place `n`; the others stay. A place that holds no instance has nothing to move. -/
def onInstance {α : Type} (move : α → Host.Outcome α Fault Refusal) (n : Nat) (all : List α) :
    Host.Outcome (List α) Fault Refusal :=
  match all[n]? with
  | none => .next all
  | some one =>
    match move one with
    | .next one' => .next (all.set n one')
    | .fault r => .fault r
    | .refused r => .refused r

/-- The instance at place `n` executes the next item of its own run. -/
def stepInstance (n : Nat) (all : List State) : Host.Outcome (List State) Fault Refusal := onInstance step n all

/-- The instance at place `n` sees a rising edge with the inputs `h` on its own channels. -/
def edgeInstance (n : Nat) (h : HostPins) (all : List Block) : Host.Outcome (List Block) Fault Refusal :=
  onInstance (fun b => b.edge h) n all

end Sys2Proof.Machine
end

