-- ==== Sys2Proof/Safety.lean ====
section
/-! DEFINITION. The terms claims are stated in: a sound state and how a run ends (60_exceptions.md R138, R149), the
bookkeeping invariant of a state, the nearest binary64 value of an exact number (00_scope.md R14, R16, R17, R21), the
unit interval of the phase with the hosts that keep it there (42_process.md R115, 70_reset_and_hazards.md R169), and
decimal literals as text (30_encoding.md R80). -/

namespace Sys2Proof.Machine

/-! ### Runs -/

/-- The marks of a state, as the host's ordering duties see them (10_state.md R39). -/
def State.marks (s : State) : Marks where
  freq := s.wrFreq
  sr := s.wrSr
  delta := s.wrDelta

/-- The items a state has still to execute. -/
def State.rest (s : State) : List RunItem := s.run.drop s.k

/-- A run ends well if it has executed its whole list and `flt = none` (60_exceptions.md R149). -/
def State.EndedWell (s : State) : Prop := s.k = s.run.length ∧ s.flt = none

/-- What a read-back of register `r` would give: nothing where the checked view holds it unwritten (60_exceptions.md
R149, R137). -/
def State.readBack (s : State) (r : Reg) : Option Word := if s.mayRead r then some (s.readReg r) else none

/-- A run's observation: the response stream and the final registers, as read back by RDPH, RDF, RDSR and RDD
(60_exceptions.md R149). -/
def State.observation (s : State) : List Word × List (Option Word) :=
  (s.out, [s.readBack .phase, s.readBack .freq, s.readBack .sr, s.readBack .delta])

/-- The commands that can raise a fault reason, and the mark that must be clear then (60_exceptions.md R137). -/
def State.explains (s : State) (w : CmdWord) : Fault → Prop
  | .uninitSr => s.wrSr = false ∧ ((opField w).toNat = 0x02 ∨ (opField w).toNat = 0x08)
  | .uninitFreq => s.wrFreq = false ∧ (opField w).toNat = 0x07
  | .uninitDelta => s.wrDelta = false ∧ ((opField w).toNat = 0x05 ∨ (opField w).toNat = 0x09)
  | .reserved op => op = opField w ∧ 0x0A ≤ op.toNat

/-- The bookkeeping invariant: the position lies in the run (R38), FREQ and DELTA are marked together and, in the checked
view, never without SR (R39, 40_configuration.md R87), and a fault mark stands in that view alone, at the command that
explains it (R137, R138). -/
structure State.Consistent (s : State) : Prop where
  position : s.k ≤ s.run.length
  marksTogether : s.wrFreq = s.wrDelta
  deltaNeedsSr : s.view = .checked → s.wrDelta = true → s.wrSr = true
  faultExplained : ∀ m, s.flt = some m →
    s.view = .checked ∧ m.position = s.k ∧ ∃ w, s.nextItem = some (.command w) ∧ s.explains w m.reason

/-- The block's invariant: the core is consistent with its whole run executed, and a command in the block has the
outcome the core gives it (30_encoding.md R75, R77). -/
structure Block.Consistent (b : Block) : Prop where
  core : b.core.Consistent
  caughtUp : b.core.flt = none → b.core.k = b.core.run.length
  outcome : ∀ w after response left, b.stage = .working w after response left →
    b.core.extend (.command w) = .next after ∧ response = newResponse b.core after ∧ left < Config.latMax b.core.inst

/-! ### Values -/

/-- `v` is what an operation may give: the value its rules fix, or any NaN where they give a NaN (00_scope.md R18). -/
def FResult.Gives (r : FResult) (v : Word) : Prop :=
  match r with
  | .num w => v = w
  | .nan => isNaN v = true

/-- `v` is the finite binary64 value nearest to `x`, and the one with the even significand where two are equally near
(00_scope.md R14, R16, R17, R21). -/
structure IsNearestEven (v : Word) (x : ℚ) : Prop where
  finite : isFinite v = true
  nearest : ∀ w, isFinite w = true → |value v - x| ≤ |value w - x|
  tie : ∀ w, isFinite w = true → value w ≠ value v → |value w - x| = |value v - x| → v.toNat % 2 = 0

/-- The magnitude from which a result rounds to an infinity: halfway from the greatest finite value to 2^1024. -/
def overflowBound : ℚ := (2 ^ 54 - 1) * 2 ^ 970

/-- `v` is the correctly rounded `x`: the nearest finite value, or the signed infinity once `|x|` is too large. -/
def RoundsTo (v : Word) (x : ℚ) : Prop :=
  (|x| < overflowBound → IsNearestEven v x) ∧ (overflowBound ≤ |x| → v = infOf (decide (x < 0)))

/-- A finite value in [0, 1]: one oscillation period's position (10_state.md R32, 42_process.md R115). -/
abbrev inUnit (v : Word) : Prop := isFinite v = true ∧ 0 ≤ value v ∧ value v ≤ 1

/-! ### The host that keeps the phase in range (70_reset_and_hazards.md R169) -/

/-- `0 <= FREQ <= SR` with a finite, positive sample rate (R169). -/
abbrev rateCovers (freq rate : Word) : Prop :=
  isFinite freq = true ∧ isFinite rate = true ∧ 0 < value rate ∧ 0 ≤ value freq ∧ value freq ≤ value rate

/-- Over the rest of its run the host gives SETF only frequencies from 0 to the sample rate that stands then (`rate`,
`none` while SR is unwritten), gives SETPH only phases in [0, 1], and issues no OFFPH (R169,
42_process.md R115: "until SETPH or OFFPH writes it"). -/
def hostKeepsRange (rate : Option Word) : List RunItem → Prop
  | [] => True
  | .reset :: rest => hostKeepsRange none rest
  | .command w :: rest =>
    match decode w with
    | .command (.setsr r) => hostKeepsRange (some r) rest
    | .command (.setf f) => (∀ r, rate = some r → rateCovers f r) ∧ hostKeepsRange rate rest
    | .command (.setph p) => inUnit p ∧ hostKeepsRange rate rest
    | .command (.offph _) => False
    | .command .nop | .command .proc | .command .rdph | .command .rdf | .command .rdsr | .command .rdd
    | .reserved _ => hostKeepsRange rate rest

/-- PHASE is in [0, 1], so is DELTA once it is written, and the host keeps them there (R115, R169). On the hardware, which
reads unwritten registers too, the host also keeps the ordering duties (60_exceptions.md R146, 70_reset_and_hazards.md
R167); in the checked view a host that does not is met by a fault. -/
structure State.InRange (s : State) : Prop where
  phase : inUnit s.phase
  delta : s.wrDelta = true → inUnit s.delta
  host : hostKeepsRange (if s.wrSr then some s.sr else none) s.rest
  order : s.view = .hardware → orderedRun s.marks s.rest = true

/-! ### Decimal literals as text (30_encoding.md R80) -/

/-- A sign as it is written: none, `+` or `-`. -/
def signText : Option Bool → List Char
  | none => []
  | some false => ['+']
  | some true => ['-']

/-- Decimal digits as they are written, the first the most significant. -/
def digitText (ds : List Nat) : List Char := ds.map hexChar

/-- The exponent of a decimal literal: `E` or `e`, a sign and digits. -/
structure ExponentText where
  upper : Bool
  sign : Option Bool
  digits : List Nat
  deriving DecidableEq, Repr

/-- The exponent as it is written. -/
def ExponentText.text (e : ExponentText) : List Char :=
  (if e.upper then 'E' else 'e') :: (signText e.sign ++ digitText e.digits)

/-- The exponent's number. -/
def ExponentText.number (e : ExponentText) : Int :=
  if e.sign = some true then -(ofDigits 10 e.digits : Int) else ofDigits 10 e.digits

/-- A decimal literal by its parts (R80 (a)); `fraction` empty is a literal without a point. -/
structure DecimalText where
  sign : Option Bool
  whole : List Nat
  fraction : List Nat
  exponent : Option ExponentText
  deriving DecidableEq, Repr

/-- Every digit is below 10, and there are digits where R80 has them. -/
def DecimalText.wellFormed (t : DecimalText) : Bool :=
  !t.whole.isEmpty && t.whole.all (· < 10) && t.fraction.all (· < 10) &&
    t.exponent.all fun e => !e.digits.isEmpty && e.digits.all (· < 10)

/-- The literal as it is written. -/
def DecimalText.text (t : DecimalText) : List Char :=
  signText t.sign ++ digitText t.whole ++ (if t.fraction.isEmpty then [] else '.' :: digitText t.fraction) ++
    (t.exponent.map ExponentText.text).getD []

/-- The digits of the literal read as one number, the point left out. -/
def DecimalText.mantissa (t : DecimalText) : Nat := ofDigits 10 (t.whole ++ t.fraction)

/-- The power of ten that number stands at: the written exponent less the digits after the point. -/
def DecimalText.scale (t : DecimalText) : Int := (t.exponent.map ExponentText.number).getD 0 - t.fraction.length

end Sys2Proof.Machine
end

