-- ==== Sys2Proof/Certificates/Slice0/Obligations.lean ====
section
/-! DEFINITION. The statements for the provers, from the numbered rules of spec/. "Gives" is `FResult.Gives`: the value
the rules fix, or any NaN where they give a NaN. Where a statement holds for some `n` in the field `draws`, that field
is the model's own count of free draws and nothing rests on it. The two views are R137's two readings of a command that
reads an unwritten register and of a reserved opcode: what the hardware does, and the model fault (log entry 12). A
statement that names neither holds in both. -/

open Sys2Proof Sys2Proof.Machine

/-! ### Encoding and decoding (30_encoding.md) -/

/-- Decoding the word of any command gives the command back, with every operand at every value (R65 to R68), and the
word is canonical: `DATA` is 0 where the command has no operand (R82). -/
def Obligations.EncodedCommandDecodes : Prop :=
  ∀ i : Instr, i.wellFormed = true → decode (encode i) = .command i ∧ canonicalWord (encode i) = true

/-- Every canonical word is the word of the command it decodes to (R67, R82): no bit of it is dropped. -/
def Obligations.CanonicalWordIsEncoding : Prop :=
  ∀ w : CmdWord, canonicalWord w = true → ∃ i, decode w = .command i ∧ encode i = w

/-- R68, R69: exactly the opcodes 0x0A to 0xFF are reserved, and a reserved word is answered by its own opcode. -/
def Obligations.ReservedOpcodesByNumber : Prop :=
  ∀ (w : CmdWord) (op : BitVec 8), decode w = .reserved op ↔ op = opField w ∧ 0x0A ≤ op.toNat

/-- R66, R70: the operand is `DATA` whole; where a command takes none, any `DATA` is the same command; and `DATA` never
changes which command a word is. -/
def Obligations.DataNeverChangesTheCommand : Prop :=
  ∀ (op : BitVec 8) (d d' : Word),
    (∀ r, decode (commandWord op d) = .reserved r → decode (commandWord op d') = .reserved r) ∧
    (∀ i, decode (commandWord op d) = .command i → ∃ j, decode (commandWord op d') = .command j ∧
      opcode j = opcode i ∧ (operand i = none → j = i) ∧
      (∀ x, operand i = some x → x = d ∧ operand j = some d'))

/-- R84's words, decoded: SETSR 44100, SETF 0.25, SETPH -0.0, OFFPH 0.3, PROC, RDPH, NOP and the reserved 0x0A. -/
def Obligations.ExampleWordsDecode : Prop :=
  decode 0x0140E5888000000000#72 = .command (.setsr 0x40E5888000000000#64) ∧
  decode 0x023FD0000000000000#72 = .command (.setf 0x3FD0000000000000#64) ∧
  decode 0x030000000000000000#72 = .command (.setph 0x0000000000000000#64) ∧
  decode 0x038000000000000000#72 = .command (.setph 0x8000000000000000#64) ∧
  decode 0x043FD3333333333333#72 = .command (.offph 0x3FD3333333333333#64) ∧
  decode 0x050000000000000000#72 = .command .proc ∧
  decode 0x060000000000000000#72 = .command .rdph ∧
  decode 0x000000000000000000#72 = .command .nop ∧
  decode 0x0A0000000000000000#72 = .reserved 0x0A#8

/-! ### The step (10_state.md R38, 60_exceptions.md R137 to R139, 70_reset_and_hazards.md R160, R161) -/

/-- A step executes the command the next word decodes to; `exec` itself moves `k` (R38), and nothing is added to it. -/
def Obligations.StepRunsTheDecodedCommand : Prop :=
  ∀ (s : State) (w : CmdWord) (i : Instr), s.nextItem = some (.command w) → decode w = .command i →
    i.wellFormed = true → step s = exec i s

/-- R69, R137 to R139: in the checked view a reserved opcode raises `RESERVED(op)`: the mark records the reason and the
position, `k` stays, and nothing else changes. On the hardware it may change any register and may or may not emit one
response, and the run goes on (log entries 10 and 12). -/
def Obligations.ReservedOpcodeFaults : Prop :=
  ∀ (s : State) (w : CmdWord), s.flt = none → s.nextItem = some (.command w) → 0x0A ≤ (opField w).toNat →
    (s.view = .checked → step s = .next { s with flt := some { reason := .reserved (opField w), position := s.k } }) ∧
    (s.view = .hardware → ∃ p f r d ys n, ys.length ≤ 1 ∧
      step s = .next { s with
        phase := p, freq := f, sr := r, delta := d, out := s.out ++ ys, k := s.k + 1, draws := n })

/-- R160, R161: the reset event sets PHASE to +0 and clears the marks, leaves `flt`, `out`, `SHAPE` and the run, and
moves `k` by 1. FREQ, SR and DELTA hold whatever they hold. -/
def Obligations.ResetEventEffect : Prop :=
  ∀ s : State, s.flt = none → s.nextItem = some .reset →
    ∃ f r d n, step s = .next { s with
      phase := 0x0000000000000000#64, freq := f, sr := r, delta := d
      wrFreq := false, wrSr := false, wrDelta := false, k := s.k + 1, draws := n }

/-- R40, R138: a state with a fault takes no further step, whatever its next item is, a reset event included. -/
def Obligations.FaultedStateHasNoStep : Prop :=
  ∀ (s : State) (m : FaultMark), s.flt = some m →
    step s = .fault m.reason ∧ ∀ i, exec i s = .fault m.reason

/-- R149, R152: at the end of the run no command is offered and the block holds everything unchanged. The idle step is
this model's reading (log entry 2). -/
def Obligations.EndOfRunHoldsEverything : Prop :=
  ∀ s : State, s.flt = none → s.run.length ≤ s.k → step s = .next s

/-- Delivering a table word as the next item makes the next step execute what the decoder reads from it, and delivering
changes the run alone (log entry 1). -/
def Obligations.DeliveredWordRunsNext : Prop :=
  ∀ (s : State) (nbits w : Nat) (i : Instr), decodeTableWord nbits w = some i →
    step (s.withFetchWord nbits w) = exec i (s.withFetchWord nbits w) ∧
    { s.withFetchWord nbits w with run := s.run } = s

/-! ### The commands: encoding, completion, result and frame

Each equation names every field that changes; every other field of the state, the response stream and the run are as
before. -/

/-- R85: NOP, with any `DATA`, has no effect and emits nothing; `k` moves by 1. -/
def Obligations.NopDoesNothing : Prop :=
  (∀ data, decode (commandWord 0x00 data) = .command .nop) ∧
  ∀ s : State, s.flt = none → exec .nop s = .next { s with k := s.k + 1 }

/-- R86: SETSR stores its operand unchecked and marks SR; PHASE, FREQ and DELTA are not written. -/
def Obligations.SetsrStoresTheRate : Prop :=
  (∀ data, decode (commandWord 0x01 data) = .command (.setsr data)) ∧
  ∀ (s : State) (data : Word), s.flt = none →
    exec (.setsr data) s = .next { s with sr := data, wrSr := true, k := s.k + 1 }

/-- R87, R137: SETF stores its operand in FREQ and `fdiv(DATA, R[SR])` in DELTA, marks both, and leaves PHASE, once SR is
written and, on the hardware, also before, with what SR holds; in the checked view it raises `UNINIT(SR)` while SR is
unwritten and writes no register (R138). The two views are this model's, log entry 12. -/
def Obligations.SetfRecomputesDelta : Prop :=
  (∀ data, decode (commandWord 0x02 data) = .command (.setf data)) ∧
  ∀ (s : State) (data : Word), s.flt = none →
    (s.view = .hardware ∨ s.wrSr = true → ∃ d n, (fdiv data s.sr).Gives d ∧
      exec (.setf data) s =
        .next { s with freq := data, delta := d, wrFreq := true, wrDelta := true, k := s.k + 1, draws := n }) ∧
    (s.view = .checked → s.wrSr = false →
      exec (.setf data) s = .next { s with flt := some { reason := .uninitSr, position := s.k } })

/-- R95: SETPH stores its operand in PHASE as given, with no range check and no wrap. -/
def Obligations.SetphOverwritesPhase : Prop :=
  (∀ data, decode (commandWord 0x03 data) = .command (.setph data)) ∧
  ∀ (s : State) (data : Word), s.flt = none →
    exec (.setph data) s = .next { s with phase := data, k := s.k + 1 }

/-- R96: OFFPH stores `fadd(R[PHASE], DATA)` in PHASE, without wrapping, with the rule's corner cases (2) to (5) and
its example, the PROC after it included. -/
def Obligations.OffphAddsWithoutWrapping : Prop :=
  (∀ data, decode (commandWord 0x04 data) = .command (.offph data)) ∧
  (∀ (s : State) (data : Word), s.flt = none → ∃ p n, (fadd s.phase data).Gives p ∧
    exec (.offph data) s = .next { s with phase := p, k := s.k + 1, draws := n }) ∧
  fadd 0x3FECCCCCCCCCCCCD#64 0x3FD3333333333333#64 = .num 0x3FF3333333333333#64 ∧
  fadd 0x0000000000000000#64 0x8000000000000000#64 = .num 0x0000000000000000#64 ∧
  fadd 0x8000000000000000#64 0x8000000000000000#64 = .num 0x8000000000000000#64 ∧
  (∀ p data, isNaN data = true → fadd p data = .nan) ∧
  (∀ neg, fadd (infOf neg) (infOf (!neg)) = .nan) ∧
  fadd 0x3FE0000000000000#64 0x3C670EF54646D497#64 = .num 0x3FE0000000000000#64 ∧
  ∃ sum, fadd 0x3FF3333333333333#64 0x3FC0000000000000#64 = .num sum ∧ wrap sum = .num 0x3FD4CCCCCCCCCCCC#64

/-- R105, R107, R108: PROC advances PHASE by DELTA, wraps, stores the new phase and emits its shape: the phase itself for
RAMP, `SIN(fmul(p, TWO_PI))` for SINE; so once DELTA is written and, on the hardware, also before, with what DELTA holds
(R137). In the checked view it raises `UNINIT(DELTA)` while DELTA is unwritten, writes no register and emits nothing (R138).
The two views are this model's, log entry 12. The last clause is the rule's example: a sum of exactly 1.0 is not
wrapped. -/
def Obligations.ProcAdvancesWrapsAndEmits : Prop :=
  (∀ data, decode (commandWord 0x05 data) = .command .proc) ∧
  ∀ s : State, s.flt = none →
    (s.view = .hardware ∨ s.wrDelta = true → ∃ sum p y n, (fadd s.phase s.delta).Gives sum ∧ (wrap sum).Gives p ∧
      (s.shape = .ramp → y = p) ∧
      (s.shape = .sine → ∃ x, (fmul p 0x401921FB54442D18#64).Gives x ∧ (fsin s.inst x).Gives y) ∧
      exec .proc s = .next { s with phase := p, out := s.out ++ [y], k := s.k + 1, draws := n }) ∧
    (s.view = .checked → s.wrDelta = false →
      exec .proc s = .next { s with flt := some { reason := .uninitDelta, position := s.k } }) ∧
    (s.wrDelta = true → s.shape = .ramp → s.phase = 0x3FE8000000000000#64 → s.delta = 0x3FD0000000000000#64 →
      exec .proc s = .next { s with
        phase := 0x3FF0000000000000#64, out := s.out ++ [0x3FF0000000000000#64], k := s.k + 1 })

/-- R125: RDPH emits PHASE bit for bit and changes no register. -/
def Obligations.RdphEmitsPhase : Prop :=
  (∀ data, decode (commandWord 0x06 data) = .command .rdph) ∧
  ∀ s : State, s.flt = none → exec .rdph s = .next { s with out := s.out ++ [s.phase], k := s.k + 1 }

/-- R126, R137: RDF emits FREQ once it is written; before, the hardware emits what FREQ holds and the checked view raises
`UNINIT(FREQ)` and writes and emits nothing (R138). The two views are this model's, log entry 12. -/
def Obligations.RdfEmitsFrequency : Prop :=
  (∀ data, decode (commandWord 0x07 data) = .command .rdf) ∧
  ∀ s : State, s.flt = none →
    (s.view = .hardware ∨ s.wrFreq = true →
      exec .rdf s = .next { s with out := s.out ++ [s.freq], k := s.k + 1 }) ∧
    (s.view = .checked → s.wrFreq = false →
      exec .rdf s = .next { s with flt := some { reason := .uninitFreq, position := s.k } })

/-- R127, R137: RDSR emits SR once it is written; before, the hardware emits what SR holds and the checked view raises
`UNINIT(SR)` and writes and emits nothing (R138). The two views are this model's, log entry 12. -/
def Obligations.RdsrEmitsSampleRate : Prop :=
  (∀ data, decode (commandWord 0x08 data) = .command .rdsr) ∧
  ∀ s : State, s.flt = none →
    (s.view = .hardware ∨ s.wrSr = true →
      exec .rdsr s = .next { s with out := s.out ++ [s.sr], k := s.k + 1 }) ∧
    (s.view = .checked → s.wrSr = false →
      exec .rdsr s = .next { s with flt := some { reason := .uninitSr, position := s.k } })

/-- R128, R137: RDD emits DELTA once it is written; before, the hardware emits what DELTA holds and the checked view
raises `UNINIT(DELTA)` and writes and emits nothing (R138). The two views are this model's, log entry 12. -/
def Obligations.RddEmitsDelta : Prop :=
  (∀ data, decode (commandWord 0x09 data) = .command .rdd) ∧
  ∀ s : State, s.flt = none →
    (s.view = .hardware ∨ s.wrDelta = true →
      exec .rdd s = .next { s with out := s.out ++ [s.delta], k := s.k + 1 }) ∧
    (s.view = .checked → s.wrDelta = false →
      exec .rdd s = .next { s with flt := some { reason := .uninitDelta, position := s.k } })

/-! ### Binary64 arithmetic (00_scope.md R14 to R19, 42_process.md R106, R114) -/

/-- R14: `fadd` of finite values is their exact sum correctly rounded, an exact zero sum has the stated sign, and the
NaN and infinity cases are as listed. -/
def Obligations.SumIsCorrectlyRounded : Prop :=
  (∀ a b, isFinite a = true → isFinite b = true → value a + value b ≠ 0 →
    ∃ v, fadd a b = .num v ∧ RoundsTo v (value a + value b)) ∧
  (∀ a b, isFinite a = true → isFinite b = true → value a + value b = 0 →
    fadd a b = .num (if a = 0x8000000000000000#64 ∧ b = 0x8000000000000000#64 then 0x8000000000000000#64
      else 0x0000000000000000#64)) ∧
  (∀ a b, isNaN a = true ∨ isNaN b = true → fadd a b = .nan) ∧
  (∀ neg, fadd (infOf neg) (infOf (!neg)) = .nan ∧ fadd (infOf neg) (infOf neg) = .num (infOf neg)) ∧
  (∀ neg a, isFinite a = true → fadd (infOf neg) a = .num (infOf neg) ∧ fadd a (infOf neg) = .num (infOf neg))

/-- R16: `fmul` of finite values is their exact product correctly rounded, its sign the XOR of the signs; 0 times an
infinity and a NaN operand give a NaN, and any other infinite operand the signed infinity. -/
def Obligations.ProductIsCorrectlyRounded : Prop :=
  (∀ a b, isFinite a = true → isFinite b = true →
    ∃ v, fmul a b = .num v ∧ RoundsTo v (value a * value b) ∧ signBit v = (signBit a ^^ signBit b)) ∧
  (∀ a b, isNaN a = true ∨ isNaN b = true → fmul a b = .nan) ∧
  (∀ neg a, isZero a = true → fmul (infOf neg) a = .nan ∧ fmul a (infOf neg) = .nan) ∧
  (∀ neg a, isNaN a = false → isZero a = false → fmul (infOf neg) a = .num (infOf (neg ^^ signBit a)) ∧
    fmul a (infOf neg) = .num (infOf (signBit a ^^ neg)))

/-- R17: `fdiv` of finite values by a nonzero one is the exact quotient correctly rounded, its sign the XOR of the
signs, and the NaN, zero and infinity cases are as listed. -/
def Obligations.QuotientIsCorrectlyRounded : Prop :=
  (∀ a b, isFinite a = true → isFinite b = true → isZero b = false →
    ∃ v, fdiv a b = .num v ∧ RoundsTo v (value a / value b) ∧ signBit v = (signBit a ^^ signBit b)) ∧
  (∀ a b, isNaN a = true ∨ isNaN b = true → fdiv a b = .nan) ∧
  (∀ a b, isZero a = true → isZero b = true → fdiv a b = .nan) ∧
  (∀ neg neg', fdiv (infOf neg) (infOf neg') = .nan) ∧
  (∀ a b, isNaN a = false → isZero a = false → isZero b = true →
    fdiv a b = .num (infOf (signBit a ^^ signBit b))) ∧
  (∀ neg a, isFinite a = true → fdiv a (infOf neg) = .num (zeroOf (signBit a ^^ neg)) ∧
    fdiv (infOf neg) a = .num (infOf (neg ^^ signBit a)))

/-- R18: a NaN draw is a NaN pattern, and every NaN pattern is one the draw may be. -/
def Obligations.NaNDrawCoversEveryNaN : Prop :=
  ∀ v : Word, isNaN v = true ↔ ∃ raw, nanPattern raw = v

/-- R19: `fgt` is the order of the values, false on a NaN, blind to the sign of zero, with the infinities outermost. -/
def Obligations.ComparisonIsOrdered : Prop :=
  (∀ a b, isFinite a = true → isFinite b = true → (fgt a b = true ↔ value b < value a)) ∧
  (∀ a b, isNaN a = true ∨ isNaN b = true → fgt a b = false) ∧
  (∀ a, isFinite a = true → fgt (infOf false) a = true ∧ fgt a (infOf false) = false) ∧
  (∀ a, isFinite a = true → fgt a (infOf true) = true ∧ fgt (infOf true) a = false) ∧
  (∀ neg neg', fgt (infOf neg) (infOf neg') = (!neg && neg'))

/-- R106: the wrap subtracts 1.0 once under the strict test and otherwise returns its argument; the subtraction is exact
for 1.0 < s <= 2.0, absorbed from 2^54 on, and leaves +Inf. -/
def Obligations.WrapIsOneConditionalSubtraction : Prop :=
  (∀ s, fgt s 0x3FF0000000000000#64 = true → wrap s = fsub s 0x3FF0000000000000#64) ∧
  (∀ s, fgt s 0x3FF0000000000000#64 = false → wrap s = .num s) ∧
  (∀ s, isFinite s = true → 1 < value s → value s ≤ 2 → ∃ p, wrap s = .num p ∧ value p = value s - 1) ∧
  (∀ s, isFinite s = true → 2 ^ 54 ≤ value s → wrap s = .num s) ∧
  wrap (infOf false) = .num (infOf false)

/-- R114: `TWO_PI` is the binary64 value nearest to twice the circle constant; forming the argument by doubling and
multiplying by `PI` gives the same result for every `p`; and the product overflows exactly beyond
2.861117485757028e+307. -/
def Obligations.SineArgumentForms : Prop :=
  (∀ w, isFinite w = true →
    |((value 0x401921FB54442D18#64 : ℚ) : ℝ) - 2 * Real.pi| ≤ |((value w : ℚ) : ℝ) - 2 * Real.pi|) ∧
  (∀ p d, fmul p 0x4000000000000000#64 = .num d →
    fmul d 0x400921FB54442D18#64 = fmul p 0x401921FB54442D18#64) ∧
  (∀ p, fmul p 0x4000000000000000#64 = .nan → fmul p 0x401921FB54442D18#64 = .nan) ∧
  (∀ p, isFinite p = true → ∃ x, fmul p 0x401921FB54442D18#64 = .num x ∧
    (isInf x = true ↔ value 0x7FC45F306DC9C882#64 < |value p|))

/-! ### Properties of PROC (42_process.md R109 to R112, R115, R118 to R120, R123, R124) -/

/-- R115: with PHASE and DELTA in [0, 1], PROC completes, leaves PHASE in [0, 1] and DELTA as it was, and raises no
fault: so the next PROC finds the same. -/
def Obligations.ProcKeepsPhaseInUnit : Prop :=
  ∀ s : State, s.flt = none → s.mayRead .delta = true → inUnit s.phase → inUnit s.delta →
    ∃ t, exec .proc s = .next t ∧ inUnit t.phase ∧ t.flt = none ∧ t.mayRead .delta = true ∧ t.delta = s.delta

/-- R115, R123: any number of PROC commands in a row completes with PHASE in [0, 1] throughout, one response each, and
with RAMP every response in [0, 1]. -/
def Obligations.ProcRunStaysInUnit : Prop :=
  ∀ (s : State) (n m : Nat), s.flt = none → s.mayRead .delta = true → inUnit s.phase → inUnit s.delta →
    s.rest = procItems n → m ≤ n →
    ∃ t ys, core.run m s = .next t ∧ t.flt = none ∧ t.k = s.k + m ∧ inUnit t.phase ∧ t.delta = s.delta ∧
      t.out = s.out ++ ys ∧ ys.length = m ∧ (s.shape = .ramp → ∀ y ∈ ys, inUnit y)

/-- R119: with DELTA < 0 and PHASE <= 1.0, the wrap does not fire and PHASE does not rise; there is no lower wrap. -/
def Obligations.NegativeStepNeverWraps : Prop :=
  ∀ s : State, s.flt = none → s.mayRead .delta = true → isFinite s.phase = true → isFinite s.delta = true →
    value s.delta < 0 → value s.phase ≤ 1 →
    ∃ sum t, fadd s.phase s.delta = .num sum ∧ fgt sum 0x3FF0000000000000#64 = false ∧
      exec .proc s = .next t ∧ t.phase = sum ∧ scaled sum ≤ scaled s.phase

/-- R118: with DELTA = 1.0 and PHASE finite and not below 0, however large, the phase stays put after at most one
rounding step. -/
def Obligations.UnitStepStaysPut : Prop :=
  ∀ s : State, s.flt = none → s.mayRead .delta = true → s.delta = 0x3FF0000000000000#64 → isFinite s.phase = true →
    0 ≤ value s.phase →
    ∃ t u, exec .proc s = .next t ∧ exec .proc t = .next u ∧ u.phase = t.phase

/-- R120: a NaN in PHASE or DELTA makes PHASE a NaN and the response one; an infinite PHASE keeps its value, and an
infinite DELTA makes a finite PHASE that infinity; opposite infinities give a NaN; and the SINE response of a PHASE that
is not finite is a NaN. -/
def Obligations.NonFinitePhasePropagates : Prop :=
  ∀ s : State, s.flt = none → s.mayRead .delta = true →
    (isNaN s.phase = true ∨ isNaN s.delta = true → ∃ t y, exec .proc s = .next t ∧ isNaN t.phase = true ∧
      t.out = s.out ++ [y] ∧ isNaN y = true ∧ (s.shape = .ramp → y = t.phase)) ∧
    (∀ neg, (s.phase = infOf neg ∧ isNaN s.delta = false ∧ s.delta ≠ infOf (!neg)) ∨
        (isFinite s.phase = true ∧ s.delta = infOf neg) →
      ∃ t y, exec .proc s = .next t ∧ t.phase = infOf neg ∧ t.out = s.out ++ [y] ∧
        (s.shape = .ramp → y = infOf neg) ∧ (s.shape = .sine → isNaN y = true)) ∧
    (∀ neg, s.phase = infOf neg → s.delta = infOf (!neg) → ∃ t y, exec .proc s = .next t ∧ isNaN t.phase = true ∧
      t.out = s.out ++ [y] ∧ isNaN y = true)

/-- R110, R112, R123: with SINE, a finite product argument gives a response in [-1, 1], and any other a NaN. -/
def Obligations.SineResponseRange : Prop :=
  ∀ s : State, s.flt = none → s.mayRead .delta = true → s.shape = .sine →
    ∃ t x y, exec .proc s = .next t ∧ (fmul t.phase 0x401921FB54442D18#64).Gives x ∧ t.out = s.out ++ [y] ∧
      (isFinite x = true → isFinite y = true ∧ -1 ≤ value y ∧ value y ≤ 1) ∧
      (isFinite x = false → isNaN y = true)

/-- R111: with SINE, a response whose argument is within 4 pi is within 1e-3 of the real sine of that argument. -/
def Obligations.SineResponseAccuracy : Prop :=
  ∀ s : State, s.flt = none → s.mayRead .delta = true → s.shape = .sine →
    ∃ t y, exec .proc s = .next t ∧ t.out = s.out ++ [y] ∧
      ∀ x, fmul t.phase 0x401921FB54442D18#64 = .num x → isFinite x = true →
        |value x| ≤ value 0x402921FB54442D18#64 →
        |((value y : ℚ) : ℝ) - Real.sin ((value x : ℚ) : ℝ)| ≤ 1 / 1000

/-- R109, R124 through the argument of R108: with SINE, the response is positive for a new phase strictly between 0 and
1/2, negative strictly between 1/2 and 1, +0 at +0, not negative at 1/2 and not positive at 1. -/
def Obligations.SineSignFollowsPhase : Prop :=
  ∀ s : State, s.flt = none → s.mayRead .delta = true → s.shape = .sine →
    ∃ t y, exec .proc s = .next t ∧ t.out = s.out ++ [y] ∧
      (isFinite t.phase = true → 0 < value t.phase → value t.phase < 1 / 2 → 0 < value y) ∧
      (isFinite t.phase = true → 1 / 2 < value t.phase → value t.phase < 1 → value y < 0) ∧
      (t.phase = 0x0000000000000000#64 → y = 0x0000000000000000#64) ∧
      (t.phase = 0x3FE0000000000000#64 → 0 ≤ value y) ∧
      (t.phase = 0x3FF0000000000000#64 → value y ≤ 0)

/-! ### What every step keeps -/

/-- The bookkeeping invariant holds at the start of every run (R164), and so right after reset. -/
def Obligations.StartIsConsistent : Prop :=
  State.Consistent State.reset ∧ ∀ view inst shape run, State.Consistent (State.start view inst shape run)

/-- Every step keeps the bookkeeping invariant: the position in the run (R38), the marks' order (R39, R87), and a fault
mark only where its command explains it (R137, R138). -/
def Obligations.StepKeepsConsistency : Prop :=
  ∀ s t : State, s.Consistent → step s = .next t → t.Consistent

/-- R31, R117: the table of who writes each register: PHASE only by SETPH, OFFPH, PROC, FREQ and DELTA only by SETF, SR
only by SETSR, and the build parameter by nobody (R36); nor does a command change which instance or which view this is (the
model's own fields, log entries 21 and 12). -/
def Obligations.RegistersHaveTheirWriters : Prop :=
  ∀ (i : Instr) (s t : State), exec i s = .next t →
    (opcode i ≠ 0x03#8 → opcode i ≠ 0x04#8 → opcode i ≠ 0x05#8 → t.phase = s.phase) ∧
    (opcode i ≠ 0x02#8 → t.freq = s.freq ∧ t.delta = s.delta ∧ t.wrFreq = s.wrFreq ∧ t.wrDelta = s.wrDelta) ∧
    (opcode i ≠ 0x01#8 → t.sr = s.sr ∧ t.wrSr = s.wrSr) ∧
    t.shape = s.shape ∧ t.inst = s.inst ∧ t.view = s.view ∧ t.run = s.run

/-- R78: PROC and each read-back add exactly one response when they do not fault, and no other command adds any. -/
def Obligations.OneResponsePerReadingCommand : Prop :=
  ∀ (i : Instr) (s t : State), exec i s = .next t →
    (t.flt = none → 0x05 ≤ (opcode i).toNat → ∃ v, t.out = s.out ++ [v]) ∧
    ((opcode i).toNat < 0x05 → t.out = s.out)

/-- R38, R138: a step either executes its item and moves `k` by exactly 1 with no fault, or, in the checked view, raises a
fault and changes nothing but the mark, or finds the run ended and changes nothing. That a step at the end answers the same state (R149,
R152) is this model's reading, log entry 2. -/
def Obligations.StepMovesOrMarks : Prop :=
  ∀ s t : State, step s = .next t → s.flt = none ∧
    ((t.flt = none ∧ t.k = s.k + 1 ∧ s.k < s.run.length ∧ s.out <+: t.out ∧ t.run = s.run ∧ t.shape = s.shape ∧
        t.inst = s.inst ∧ t.view = s.view) ∨
      (∃ reason, s.view = .checked ∧ t = { s with flt := some { reason := reason, position := s.k } }) ∨
      (s.run.length ≤ s.k ∧ t = s))

/-- R146, R149: for a host that keeps the ordering duties over the rest of its run, no step ever faults and the run ends
well. That steps beyond the end complete too is this model's idle step, log entry 2. -/
def Obligations.OrderedRunEndsWell : Prop :=
  ∀ s : State, s.flt = none → s.k ≤ s.run.length → orderedRun s.marks s.rest = true →
    (∀ n, ∃ t, core.run n s = .next t ∧ t.flt = none) ∧
    ∃ t, core.run s.rest.length s = .next t ∧ t.EndedWell

/-- R166: after `SETSR a`, `SETF f`, `SETSR b`, DELTA still holds `fdiv(f, a)`, RDD reports it, and RDSR reports `b`. -/
def Obligations.DeltaGoesStale : Prop :=
  ∀ (s : State) (a f b : Word), s.flt = none →
    ∃ s₁ s₂ s₃ t u d, exec (.setsr a) s = .next s₁ ∧ exec (.setf f) s₁ = .next s₂ ∧ exec (.setsr b) s₂ = .next s₃ ∧
      (fdiv f a).Gives d ∧ s₃.delta = d ∧
      exec .rdd s₃ = .next t ∧ t.out = s.out ++ [d] ∧ exec .rdsr s₃ = .next u ∧ u.out = s.out ++ [b]

/-! ### The two views (60_exceptions.md R135, R137) -/

/-- R135: no command is refused and none stops the hardware, whatever the registers hold and whether or not anything has
written them; and the machine right after reset is the hardware (log entry 12). -/
def Obligations.HardwareNeverStops : Prop :=
  (State.reset.view = .hardware ∧ State.reset.flt = none) ∧
  (∀ s : State, s.view = .hardware → s.flt = none → ∃ t, step s = .next t ∧ t.view = .hardware ∧ t.flt = none) ∧
  ∀ s : State, ∃ t, hardwareStep s = .next t

/-- R39, R137: where the checked view raises no fault, the hardware does the same: the marks are bookkeeping only. The two
views are this model's (log entry 12). That drawn NaN bits, and what a reset event leaves, are the same in both is no rule
of the spec (R18): both steps make the same draw, log entries 5 and 7. -/
def Obligations.HardwareAgreesWhereTheModelIsSound : Prop :=
  ∀ s t : State, step s = .next t → t.flt = none →
    ∃ h, hardwareStep s = .next h ∧ h.asHardware = t.asHardware

/-! ### The physical interface (30_encoding.md R73 to R76, 70_reset_and_hazards.md R162, R172) -/

/-- R75, R76: nothing is ready or valid while `rst = 1`, and while a command is in the block it accepts no other. -/
def Obligations.PinsInResetAndWhileWorking : Prop :=
  (∀ b : Block, (b.pins true).cmdReady = false ∧ (b.pins true).rspValid = false) ∧
  (∀ (b : Block) (w : CmdWord) (after : State) (response : Option Word) (left : Nat) (rst : Bool),
    b.stage = .working w after response left → (b.pins rst).cmdReady = false)

/-- The block's invariant holds when it starts and every edge keeps it: the core only ever goes on by executing the
accepted commands in order (R75, R77, 20_memory.md R57), and a command in the block has fewer than `LAT_MAX` edges left
before its last (R172). That the core's run holds a command from its finishing edge, not from its acceptance, is this
model's choice, log entry 15; that edges are counted from the one after acceptance is its reading, log entry 19. -/
def Obligations.EdgeKeepsBlockConsistency : Prop :=
  (∀ view inst shape, (Block.start view inst shape).Consistent) ∧
  ∀ (b b' : Block) (h : HostPins), b.Consistent → b.edge h = .next b' → b'.Consistent

/-- R74: a valid response stays valid and stable until the host takes it, and is then the next entry of `out`. That the
block is ready from the delivering edge on is this model's reading of R75, log entry 16. -/
def Obligations.ResponseIsHeldUntilTaken : Prop :=
  ∀ (b : Block) (h : HostPins), b.Consistent → b.core.flt = none → (b.pins false).rspValid = true → h.rst = false →
    hostHolds b.offer h = true →
    ∃ b', b.edge h = .next b' ∧
      (h.rspReady = false → (b'.pins false).rspValid = true ∧ (b'.pins false).rspData = (b.pins false).rspData ∧
        b'.core = b.core) ∧
      (h.rspReady = true → b'.stage = .ready ∧ b'.core.out = b.core.out ++ [(b.pins false).rspData])

/-- R162: a reset edge abandons the command in the block: its response is never delivered, responses already delivered
stay, and the registers and marks are as reset leaves them. (An edge with `cmd_valid` in reset has no move:
Obligations.HandshakeBreakHasNoMove.) -/
def Obligations.ResetAbandonsTheCommand : Prop :=
  ∀ (b : Block) (h : HostPins), b.core.flt = none → h.rst = true → h.cmdValid = false →
    ∃ b' left, b.edge h = .next b' ∧ b'.stage = .recovering left ∧ b'.core.out = b.core.out ∧
      b'.core.phase = 0x0000000000000000#64 ∧ b'.core.wrFreq = false ∧ b'.core.wrSr = false ∧
      b'.core.wrDelta = false ∧ b'.core.flt = none ∧ b'.core.shape = b.core.shape ∧
      b'.core.inst = b.core.inst ∧ b'.core.view = b.core.view

/-- R73, R172: an offered command is accepted at an edge with `cmd_ready = 1`, and, with the host always ready for the
response and keeping what it offers meanwhile, it finishes within `LAT_MAX` edges with the outcome the core gives it.
This model's readings: edges are counted from the one after acceptance (log entry 19), the block is ready at the
finishing edge (log entry 16), and a faulting command finishes like any other, its fault standing in the core (log entry
17). -/
def Obligations.AcceptedCommandFinishes : Prop :=
  ∀ (b : Block) (h : HostPins) (hs : List HostPins) (after : State), b.core.flt = none → b.stage = .ready →
    h.rst = false → h.cmdValid = true → hostHolds b.offer h = true →
    b.core.extend (.command h.cmdWord) = .next after →
    hs.length = Config.latMax b.core.inst → (∀ p ∈ hs, p.rst = false ∧ p.rspReady = true) →
    hs.Pairwise (fun p q => p.cmdValid = true → q.cmdValid = true ∧ q.cmdWord = p.cmdWord) →
    ∃ n b', n ≤ Config.latMax b.core.inst ∧ b.runEdges (h :: hs.take n) = .next b' ∧ b'.core = after ∧ b'.stage = .ready

/-! ### Assembly (30_encoding.md R80 to R83) -/

/-- R81: reading a listing back gives the word. -/
def Obligations.ListingReadsBack : Prop :=
  ∀ w : CmdWord, readListing (listing w) = some w

/-- R82: every word an assembled program holds is canonical. -/
def Obligations.AssembledWordsAreCanonical : Prop :=
  ∀ (lines : List (List Char)) (items : List RunItem) (w : CmdWord),
    assemble lines = some items → RunItem.command w ∈ items → canonicalWord w = true

/-- R80: `0x` and the 16 hexadecimal digits of a pattern give the pattern; the text of every decimal literal (sign,
digits, point and digits, exponent) is read as its mantissa at its scale, whose value is the nearest binary64 value, ties
to even, or a zero of the literal's sign; `-0.0` gives -0, and `inf` and `-inf` the infinities. That a literal too large
for binary64 becomes the signed infinity (the second half of `RoundsTo`) is this model's choice, log entry 20. -/
def Obligations.LiteralsGiveTheirValues : Prop :=
  (∀ v : Word, operandLiteral ('0' :: 'x' :: hexDigits v.toNat 16) = some v) ∧
  (∀ t : DecimalText, t.wellFormed = true →
    operandLiteral t.text = some (decimalValue (t.sign == some true) t.mantissa t.scale)) ∧
  (∀ (neg : Bool) (e : Int), decimalValue neg 0 e = zeroOf neg) ∧
  (∀ (neg : Bool) (m : Nat) (e : Int), m ≠ 0 →
    RoundsTo (decimalValue neg m e) ((if neg then -1 else 1) * (m * (10 : ℚ) ^ e))) ∧
  operandLiteral "-0.0".toList = some 0x8000000000000000#64 ∧
  operandLiteral "inf".toList = some 0x7FF0000000000000#64 ∧
  operandLiteral "-inf".toList = some 0xFFF0000000000000#64

/-- R83: the expansions of the pseudo-instructions and the reset directive. -/
def Obligations.PseudoInstructionsExpand : Prop :=
  assembleLine "CONFIG 10, 1".toList =
    some [.command 0x014024000000000000#72, .command 0x023FF0000000000000#72] ∧
  assembleLine "PREPARE 44100".toList =
    some [.command 0x0140E5888000000000#72, .command 0x023FD0000000000000#72] ∧
  assembleLine "PROCN 0".toList = some [] ∧
  assembleLine "PROCN 2".toList =
    some [.command 0x050000000000000000#72, .command 0x050000000000000000#72] ∧
  assembleLine ".reset".toList = some [.reset]

/-! ### Further invariants and the host (42_process.md R115, 60_exceptions.md R146, R147, 70_reset_and_hazards.md R169) -/

/-- R115, R169: while the host keeps `0 <= FREQ <= SR`, sets only phases in [0, 1] and adds no offset (and, on the
hardware, configures before it uses, R167), every step keeps PHASE in [0, 1], across resets, rate changes and faults too.
It holds at the start of every run of such a host. -/
def Obligations.StepKeepsPhaseInRange : Prop :=
  (∀ view inst shape run, hostKeepsRange none run →
    (view = .hardware → orderedRun { freq := false, sr := false, delta := false } run = true) →
    (State.start view inst shape run).InRange) ∧
  ∀ s t : State, s.InRange → step s = .next t → t.InRange

/-- R146, R149: from a state with no fault whose host keeps the ordering duties over the rest of its run, a step
completes with no fault, and the host keeps them over what is then left. The step at the end of the run is this model's
idle step, log entry 2. -/
def Obligations.StepKeepsHostOrder : Prop :=
  ∀ s : State, s.flt = none → orderedRun s.marks s.rest = true →
    ∃ t, step s = .next t ∧ t.flt = none ∧ orderedRun t.marks t.rest = true

/-- R73, R146: a host that changes or withdraws an offered word before its acceptance, or drives `cmd_valid` during
reset, has no move; every other host has one at each edge of a sound block; and no offer stands once it is accepted, or
after an edge at which nothing is offered. That a reset ends a standing offer is this model's reading, log entry 17. -/
def Obligations.HandshakeBreakHasNoMove : Prop :=
  (∀ (b b' : Block) (h h' : HostPins), b.edge h = .next b' → h.rst = false → h.cmdValid = true →
    (b.pins false).cmdReady = false → b'.core.flt = none → h'.rst = false →
    h'.cmdValid = false ∨ h'.cmdWord ≠ h.cmdWord → b'.edge h' = .refused .hostBreaksHandshake) ∧
  (∀ (b : Block) (h : HostPins), b.core.flt = none → h.rst = true → h.cmdValid = true →
    b.edge h = .refused .hostBreaksHandshake) ∧
  (∀ (b : Block) (h : HostPins), b.core.flt = none → hostHolds b.offer h = true → ∃ b', b.edge h = .next b') ∧
  (∀ (b b' : Block) (h : HostPins), b.edge h = .next b' →
    h.rst = true ∨ h.cmdValid = false ∨ (b.pins false).cmdReady = true → b'.offer = none)

/-- Moving one instance leaves every other as it was, at the command level and at the pins, and two instances may move in
either order with the same outcome. R147 says that instances share nothing; holding several of them as a list of which one
move changes one entry (`onInstance`) is this model's composition, log entry 21, and this is a property of it. -/
def Obligations.InstancesAreIndependent : Prop :=
  (∀ (n m : Nat) (all after : List State), stepInstance n all = .next after →
    after.length = all.length ∧ (m ≠ n → after[m]? = all[m]?)) ∧
  (∀ (n m : Nat) (h : HostPins) (all after : List Block), edgeInstance n h all = .next after →
    after.length = all.length ∧ (m ≠ n → after[m]? = all[m]?)) ∧
  (∀ (n m : Nat) (all a b : List State), m ≠ n → stepInstance n all = .next a → stepInstance m all = .next b →
    ∃ c, stepInstance m a = .next c ∧ stepInstance n b = .next c) ∧
  (∀ (n m : Nat) (h g : HostPins) (all a b : List Block), m ≠ n → edgeInstance n h all = .next a →
    edgeInstance m g all = .next b → ∃ c, edgeInstance m g a = .next c ∧ edgeInstance n h b = .next c)
end

