-- ==== Sys2Proof/Laws/State.lean ====
section
/-! SUPPORT. What each update does to each field of State, so that no later proof unfolds a record update. -/

namespace Sys2Proof.Machine

/-! ### Register writes (00_scope.md R12) -/

@[simp] theorem writeReg_phase_phase (s : State) (v : Word) : (s.writeReg .phase v).phase = v := rfl
@[simp] theorem writeReg_phase_freq (s : State) (v : Word) : (s.writeReg .phase v).freq = s.freq := rfl
@[simp] theorem writeReg_phase_sr (s : State) (v : Word) : (s.writeReg .phase v).sr = s.sr := rfl
@[simp] theorem writeReg_phase_delta (s : State) (v : Word) : (s.writeReg .phase v).delta = s.delta := rfl
@[simp] theorem writeReg_phase_wrFreq (s : State) (v : Word) : (s.writeReg .phase v).wrFreq = s.wrFreq := rfl
@[simp] theorem writeReg_phase_wrSr (s : State) (v : Word) : (s.writeReg .phase v).wrSr = s.wrSr := rfl
@[simp] theorem writeReg_phase_wrDelta (s : State) (v : Word) : (s.writeReg .phase v).wrDelta = s.wrDelta := rfl
@[simp] theorem writeReg_phase_flt (s : State) (v : Word) : (s.writeReg .phase v).flt = s.flt := rfl
@[simp] theorem writeReg_phase_k (s : State) (v : Word) : (s.writeReg .phase v).k = s.k := rfl
@[simp] theorem writeReg_phase_out (s : State) (v : Word) : (s.writeReg .phase v).out = s.out := rfl
@[simp] theorem writeReg_phase_run (s : State) (v : Word) : (s.writeReg .phase v).run = s.run := rfl
@[simp] theorem writeReg_phase_shape (s : State) (v : Word) : (s.writeReg .phase v).shape = s.shape := rfl
@[simp] theorem writeReg_phase_view (s : State) (v : Word) : (s.writeReg .phase v).view = s.view := rfl
@[simp] theorem writeReg_phase_inst (s : State) (v : Word) : (s.writeReg .phase v).inst = s.inst := rfl
@[simp] theorem writeReg_phase_draws (s : State) (v : Word) : (s.writeReg .phase v).draws = s.draws := rfl

@[simp] theorem writeReg_freq_phase (s : State) (v : Word) : (s.writeReg .freq v).phase = s.phase := rfl
@[simp] theorem writeReg_freq_freq (s : State) (v : Word) : (s.writeReg .freq v).freq = v := rfl
@[simp] theorem writeReg_freq_sr (s : State) (v : Word) : (s.writeReg .freq v).sr = s.sr := rfl
@[simp] theorem writeReg_freq_delta (s : State) (v : Word) : (s.writeReg .freq v).delta = s.delta := rfl
@[simp] theorem writeReg_freq_wrFreq (s : State) (v : Word) : (s.writeReg .freq v).wrFreq = s.wrFreq := rfl
@[simp] theorem writeReg_freq_wrSr (s : State) (v : Word) : (s.writeReg .freq v).wrSr = s.wrSr := rfl
@[simp] theorem writeReg_freq_wrDelta (s : State) (v : Word) : (s.writeReg .freq v).wrDelta = s.wrDelta := rfl
@[simp] theorem writeReg_freq_flt (s : State) (v : Word) : (s.writeReg .freq v).flt = s.flt := rfl
@[simp] theorem writeReg_freq_k (s : State) (v : Word) : (s.writeReg .freq v).k = s.k := rfl
@[simp] theorem writeReg_freq_out (s : State) (v : Word) : (s.writeReg .freq v).out = s.out := rfl
@[simp] theorem writeReg_freq_run (s : State) (v : Word) : (s.writeReg .freq v).run = s.run := rfl
@[simp] theorem writeReg_freq_shape (s : State) (v : Word) : (s.writeReg .freq v).shape = s.shape := rfl
@[simp] theorem writeReg_freq_view (s : State) (v : Word) : (s.writeReg .freq v).view = s.view := rfl
@[simp] theorem writeReg_freq_inst (s : State) (v : Word) : (s.writeReg .freq v).inst = s.inst := rfl
@[simp] theorem writeReg_freq_draws (s : State) (v : Word) : (s.writeReg .freq v).draws = s.draws := rfl

@[simp] theorem writeReg_sr_phase (s : State) (v : Word) : (s.writeReg .sr v).phase = s.phase := rfl
@[simp] theorem writeReg_sr_freq (s : State) (v : Word) : (s.writeReg .sr v).freq = s.freq := rfl
@[simp] theorem writeReg_sr_sr (s : State) (v : Word) : (s.writeReg .sr v).sr = v := rfl
@[simp] theorem writeReg_sr_delta (s : State) (v : Word) : (s.writeReg .sr v).delta = s.delta := rfl
@[simp] theorem writeReg_sr_wrFreq (s : State) (v : Word) : (s.writeReg .sr v).wrFreq = s.wrFreq := rfl
@[simp] theorem writeReg_sr_wrSr (s : State) (v : Word) : (s.writeReg .sr v).wrSr = s.wrSr := rfl
@[simp] theorem writeReg_sr_wrDelta (s : State) (v : Word) : (s.writeReg .sr v).wrDelta = s.wrDelta := rfl
@[simp] theorem writeReg_sr_flt (s : State) (v : Word) : (s.writeReg .sr v).flt = s.flt := rfl
@[simp] theorem writeReg_sr_k (s : State) (v : Word) : (s.writeReg .sr v).k = s.k := rfl
@[simp] theorem writeReg_sr_out (s : State) (v : Word) : (s.writeReg .sr v).out = s.out := rfl
@[simp] theorem writeReg_sr_run (s : State) (v : Word) : (s.writeReg .sr v).run = s.run := rfl
@[simp] theorem writeReg_sr_shape (s : State) (v : Word) : (s.writeReg .sr v).shape = s.shape := rfl
@[simp] theorem writeReg_sr_view (s : State) (v : Word) : (s.writeReg .sr v).view = s.view := rfl
@[simp] theorem writeReg_sr_inst (s : State) (v : Word) : (s.writeReg .sr v).inst = s.inst := rfl
@[simp] theorem writeReg_sr_draws (s : State) (v : Word) : (s.writeReg .sr v).draws = s.draws := rfl

@[simp] theorem writeReg_delta_phase (s : State) (v : Word) : (s.writeReg .delta v).phase = s.phase := rfl
@[simp] theorem writeReg_delta_freq (s : State) (v : Word) : (s.writeReg .delta v).freq = s.freq := rfl
@[simp] theorem writeReg_delta_sr (s : State) (v : Word) : (s.writeReg .delta v).sr = s.sr := rfl
@[simp] theorem writeReg_delta_delta (s : State) (v : Word) : (s.writeReg .delta v).delta = v := rfl
@[simp] theorem writeReg_delta_wrFreq (s : State) (v : Word) : (s.writeReg .delta v).wrFreq = s.wrFreq := rfl
@[simp] theorem writeReg_delta_wrSr (s : State) (v : Word) : (s.writeReg .delta v).wrSr = s.wrSr := rfl
@[simp] theorem writeReg_delta_wrDelta (s : State) (v : Word) : (s.writeReg .delta v).wrDelta = s.wrDelta := rfl
@[simp] theorem writeReg_delta_flt (s : State) (v : Word) : (s.writeReg .delta v).flt = s.flt := rfl
@[simp] theorem writeReg_delta_k (s : State) (v : Word) : (s.writeReg .delta v).k = s.k := rfl
@[simp] theorem writeReg_delta_out (s : State) (v : Word) : (s.writeReg .delta v).out = s.out := rfl
@[simp] theorem writeReg_delta_run (s : State) (v : Word) : (s.writeReg .delta v).run = s.run := rfl
@[simp] theorem writeReg_delta_shape (s : State) (v : Word) : (s.writeReg .delta v).shape = s.shape := rfl
@[simp] theorem writeReg_delta_view (s : State) (v : Word) : (s.writeReg .delta v).view = s.view := rfl
@[simp] theorem writeReg_delta_inst (s : State) (v : Word) : (s.writeReg .delta v).inst = s.inst := rfl
@[simp] theorem writeReg_delta_draws (s : State) (v : Word) : (s.writeReg .delta v).draws = s.draws := rfl

/-! ### Written marks (10_state.md R39) -/

@[simp] theorem markWritten_phase_phase (s : State) : (s.markWritten .phase).phase = s.phase := rfl
@[simp] theorem markWritten_phase_freq (s : State) : (s.markWritten .phase).freq = s.freq := rfl
@[simp] theorem markWritten_phase_sr (s : State) : (s.markWritten .phase).sr = s.sr := rfl
@[simp] theorem markWritten_phase_delta (s : State) : (s.markWritten .phase).delta = s.delta := rfl
@[simp] theorem markWritten_phase_wrFreq (s : State) : (s.markWritten .phase).wrFreq = s.wrFreq := rfl
@[simp] theorem markWritten_phase_wrSr (s : State) : (s.markWritten .phase).wrSr = s.wrSr := rfl
@[simp] theorem markWritten_phase_wrDelta (s : State) : (s.markWritten .phase).wrDelta = s.wrDelta := rfl
@[simp] theorem markWritten_phase_flt (s : State) : (s.markWritten .phase).flt = s.flt := rfl
@[simp] theorem markWritten_phase_k (s : State) : (s.markWritten .phase).k = s.k := rfl
@[simp] theorem markWritten_phase_out (s : State) : (s.markWritten .phase).out = s.out := rfl
@[simp] theorem markWritten_phase_run (s : State) : (s.markWritten .phase).run = s.run := rfl
@[simp] theorem markWritten_phase_shape (s : State) : (s.markWritten .phase).shape = s.shape := rfl
@[simp] theorem markWritten_phase_view (s : State) : (s.markWritten .phase).view = s.view := rfl
@[simp] theorem markWritten_phase_inst (s : State) : (s.markWritten .phase).inst = s.inst := rfl
@[simp] theorem markWritten_phase_draws (s : State) : (s.markWritten .phase).draws = s.draws := rfl

@[simp] theorem markWritten_freq_phase (s : State) : (s.markWritten .freq).phase = s.phase := rfl
@[simp] theorem markWritten_freq_freq (s : State) : (s.markWritten .freq).freq = s.freq := rfl
@[simp] theorem markWritten_freq_sr (s : State) : (s.markWritten .freq).sr = s.sr := rfl
@[simp] theorem markWritten_freq_delta (s : State) : (s.markWritten .freq).delta = s.delta := rfl
@[simp] theorem markWritten_freq_wrFreq (s : State) : (s.markWritten .freq).wrFreq = true := rfl
@[simp] theorem markWritten_freq_wrSr (s : State) : (s.markWritten .freq).wrSr = s.wrSr := rfl
@[simp] theorem markWritten_freq_wrDelta (s : State) : (s.markWritten .freq).wrDelta = s.wrDelta := rfl
@[simp] theorem markWritten_freq_flt (s : State) : (s.markWritten .freq).flt = s.flt := rfl
@[simp] theorem markWritten_freq_k (s : State) : (s.markWritten .freq).k = s.k := rfl
@[simp] theorem markWritten_freq_out (s : State) : (s.markWritten .freq).out = s.out := rfl
@[simp] theorem markWritten_freq_run (s : State) : (s.markWritten .freq).run = s.run := rfl
@[simp] theorem markWritten_freq_shape (s : State) : (s.markWritten .freq).shape = s.shape := rfl
@[simp] theorem markWritten_freq_view (s : State) : (s.markWritten .freq).view = s.view := rfl
@[simp] theorem markWritten_freq_inst (s : State) : (s.markWritten .freq).inst = s.inst := rfl
@[simp] theorem markWritten_freq_draws (s : State) : (s.markWritten .freq).draws = s.draws := rfl

@[simp] theorem markWritten_sr_phase (s : State) : (s.markWritten .sr).phase = s.phase := rfl
@[simp] theorem markWritten_sr_freq (s : State) : (s.markWritten .sr).freq = s.freq := rfl
@[simp] theorem markWritten_sr_sr (s : State) : (s.markWritten .sr).sr = s.sr := rfl
@[simp] theorem markWritten_sr_delta (s : State) : (s.markWritten .sr).delta = s.delta := rfl
@[simp] theorem markWritten_sr_wrFreq (s : State) : (s.markWritten .sr).wrFreq = s.wrFreq := rfl
@[simp] theorem markWritten_sr_wrSr (s : State) : (s.markWritten .sr).wrSr = true := rfl
@[simp] theorem markWritten_sr_wrDelta (s : State) : (s.markWritten .sr).wrDelta = s.wrDelta := rfl
@[simp] theorem markWritten_sr_flt (s : State) : (s.markWritten .sr).flt = s.flt := rfl
@[simp] theorem markWritten_sr_k (s : State) : (s.markWritten .sr).k = s.k := rfl
@[simp] theorem markWritten_sr_out (s : State) : (s.markWritten .sr).out = s.out := rfl
@[simp] theorem markWritten_sr_run (s : State) : (s.markWritten .sr).run = s.run := rfl
@[simp] theorem markWritten_sr_shape (s : State) : (s.markWritten .sr).shape = s.shape := rfl
@[simp] theorem markWritten_sr_view (s : State) : (s.markWritten .sr).view = s.view := rfl
@[simp] theorem markWritten_sr_inst (s : State) : (s.markWritten .sr).inst = s.inst := rfl
@[simp] theorem markWritten_sr_draws (s : State) : (s.markWritten .sr).draws = s.draws := rfl

@[simp] theorem markWritten_delta_phase (s : State) : (s.markWritten .delta).phase = s.phase := rfl
@[simp] theorem markWritten_delta_freq (s : State) : (s.markWritten .delta).freq = s.freq := rfl
@[simp] theorem markWritten_delta_sr (s : State) : (s.markWritten .delta).sr = s.sr := rfl
@[simp] theorem markWritten_delta_delta (s : State) : (s.markWritten .delta).delta = s.delta := rfl
@[simp] theorem markWritten_delta_wrFreq (s : State) : (s.markWritten .delta).wrFreq = s.wrFreq := rfl
@[simp] theorem markWritten_delta_wrSr (s : State) : (s.markWritten .delta).wrSr = s.wrSr := rfl
@[simp] theorem markWritten_delta_wrDelta (s : State) : (s.markWritten .delta).wrDelta = true := rfl
@[simp] theorem markWritten_delta_flt (s : State) : (s.markWritten .delta).flt = s.flt := rfl
@[simp] theorem markWritten_delta_k (s : State) : (s.markWritten .delta).k = s.k := rfl
@[simp] theorem markWritten_delta_out (s : State) : (s.markWritten .delta).out = s.out := rfl
@[simp] theorem markWritten_delta_run (s : State) : (s.markWritten .delta).run = s.run := rfl
@[simp] theorem markWritten_delta_shape (s : State) : (s.markWritten .delta).shape = s.shape := rfl
@[simp] theorem markWritten_delta_view (s : State) : (s.markWritten .delta).view = s.view := rfl
@[simp] theorem markWritten_delta_inst (s : State) : (s.markWritten .delta).inst = s.inst := rfl
@[simp] theorem markWritten_delta_draws (s : State) : (s.markWritten .delta).draws = s.draws := rfl

@[simp] theorem clearMarks_phase (s : State) : (s.clearMarks).phase = s.phase := rfl
@[simp] theorem clearMarks_freq (s : State) : (s.clearMarks).freq = s.freq := rfl
@[simp] theorem clearMarks_sr (s : State) : (s.clearMarks).sr = s.sr := rfl
@[simp] theorem clearMarks_delta (s : State) : (s.clearMarks).delta = s.delta := rfl
@[simp] theorem clearMarks_wrFreq (s : State) : (s.clearMarks).wrFreq = false := rfl
@[simp] theorem clearMarks_wrSr (s : State) : (s.clearMarks).wrSr = false := rfl
@[simp] theorem clearMarks_wrDelta (s : State) : (s.clearMarks).wrDelta = false := rfl
@[simp] theorem clearMarks_flt (s : State) : (s.clearMarks).flt = s.flt := rfl
@[simp] theorem clearMarks_k (s : State) : (s.clearMarks).k = s.k := rfl
@[simp] theorem clearMarks_out (s : State) : (s.clearMarks).out = s.out := rfl
@[simp] theorem clearMarks_run (s : State) : (s.clearMarks).run = s.run := rfl
@[simp] theorem clearMarks_shape (s : State) : (s.clearMarks).shape = s.shape := rfl
@[simp] theorem clearMarks_view (s : State) : (s.clearMarks).view = s.view := rfl
@[simp] theorem clearMarks_inst (s : State) : (s.clearMarks).inst = s.inst := rfl
@[simp] theorem clearMarks_draws (s : State) : (s.clearMarks).draws = s.draws := rfl

/-! ### Responses, position, faults (R38, R40, R41) -/

@[simp] theorem emit_phase (s : State) (v : Word) : (s.emit v).phase = s.phase := rfl
@[simp] theorem emit_freq (s : State) (v : Word) : (s.emit v).freq = s.freq := rfl
@[simp] theorem emit_sr (s : State) (v : Word) : (s.emit v).sr = s.sr := rfl
@[simp] theorem emit_delta (s : State) (v : Word) : (s.emit v).delta = s.delta := rfl
@[simp] theorem emit_wrFreq (s : State) (v : Word) : (s.emit v).wrFreq = s.wrFreq := rfl
@[simp] theorem emit_wrSr (s : State) (v : Word) : (s.emit v).wrSr = s.wrSr := rfl
@[simp] theorem emit_wrDelta (s : State) (v : Word) : (s.emit v).wrDelta = s.wrDelta := rfl
@[simp] theorem emit_flt (s : State) (v : Word) : (s.emit v).flt = s.flt := rfl
@[simp] theorem emit_k (s : State) (v : Word) : (s.emit v).k = s.k := rfl
@[simp] theorem emit_out (s : State) (v : Word) : (s.emit v).out = s.out ++ [v] := rfl
@[simp] theorem emit_run (s : State) (v : Word) : (s.emit v).run = s.run := rfl
@[simp] theorem emit_shape (s : State) (v : Word) : (s.emit v).shape = s.shape := rfl
@[simp] theorem emit_view (s : State) (v : Word) : (s.emit v).view = s.view := rfl
@[simp] theorem emit_inst (s : State) (v : Word) : (s.emit v).inst = s.inst := rfl
@[simp] theorem emit_draws (s : State) (v : Word) : (s.emit v).draws = s.draws := rfl

@[simp] theorem advance_phase (s : State) : (s.advance).phase = s.phase := rfl
@[simp] theorem advance_freq (s : State) : (s.advance).freq = s.freq := rfl
@[simp] theorem advance_sr (s : State) : (s.advance).sr = s.sr := rfl
@[simp] theorem advance_delta (s : State) : (s.advance).delta = s.delta := rfl
@[simp] theorem advance_wrFreq (s : State) : (s.advance).wrFreq = s.wrFreq := rfl
@[simp] theorem advance_wrSr (s : State) : (s.advance).wrSr = s.wrSr := rfl
@[simp] theorem advance_wrDelta (s : State) : (s.advance).wrDelta = s.wrDelta := rfl
@[simp] theorem advance_flt (s : State) : (s.advance).flt = s.flt := rfl
@[simp] theorem advance_k (s : State) : (s.advance).k = s.k + 1 := rfl
@[simp] theorem advance_out (s : State) : (s.advance).out = s.out := rfl
@[simp] theorem advance_run (s : State) : (s.advance).run = s.run := rfl
@[simp] theorem advance_shape (s : State) : (s.advance).shape = s.shape := rfl
@[simp] theorem advance_view (s : State) : (s.advance).view = s.view := rfl
@[simp] theorem advance_inst (s : State) : (s.advance).inst = s.inst := rfl
@[simp] theorem advance_draws (s : State) : (s.advance).draws = s.draws := rfl

@[simp] theorem raise_phase (s : State) (reason : Fault) : (s.raise reason).phase = s.phase := rfl
@[simp] theorem raise_freq (s : State) (reason : Fault) : (s.raise reason).freq = s.freq := rfl
@[simp] theorem raise_sr (s : State) (reason : Fault) : (s.raise reason).sr = s.sr := rfl
@[simp] theorem raise_delta (s : State) (reason : Fault) : (s.raise reason).delta = s.delta := rfl
@[simp] theorem raise_wrFreq (s : State) (reason : Fault) : (s.raise reason).wrFreq = s.wrFreq := rfl
@[simp] theorem raise_wrSr (s : State) (reason : Fault) : (s.raise reason).wrSr = s.wrSr := rfl
@[simp] theorem raise_wrDelta (s : State) (reason : Fault) : (s.raise reason).wrDelta = s.wrDelta := rfl
@[simp] theorem raise_flt (s : State) (reason : Fault) :
    (s.raise reason).flt = some { reason := reason, position := s.k } := rfl
@[simp] theorem raise_k (s : State) (reason : Fault) : (s.raise reason).k = s.k := rfl
@[simp] theorem raise_out (s : State) (reason : Fault) : (s.raise reason).out = s.out := rfl
@[simp] theorem raise_run (s : State) (reason : Fault) : (s.raise reason).run = s.run := rfl
@[simp] theorem raise_shape (s : State) (reason : Fault) : (s.raise reason).shape = s.shape := rfl
@[simp] theorem raise_view (s : State) (reason : Fault) : (s.raise reason).view = s.view := rfl
@[simp] theorem raise_inst (s : State) (reason : Fault) : (s.raise reason).inst = s.inst := rfl
@[simp] theorem raise_draws (s : State) (reason : Fault) : (s.raise reason).draws = s.draws := rfl

/-! ### Reset and the run (70_reset_and_hazards.md R161, 10_state.md R38) -/

@[simp] theorem resetRegisters_phase (s : State) : (s.resetRegisters).phase = zeroOf false := rfl
@[simp] theorem resetRegisters_freq (s : State) : (s.resetRegisters).freq =
    Config.freqAfterReset s.inst s.draws s.freq := rfl
@[simp] theorem resetRegisters_sr (s : State) : (s.resetRegisters).sr =
    Config.srAfterReset s.inst s.draws s.sr := rfl
@[simp] theorem resetRegisters_delta (s : State) : (s.resetRegisters).delta =
    Config.deltaAfterReset s.inst s.draws s.delta := rfl
@[simp] theorem resetRegisters_wrFreq (s : State) : (s.resetRegisters).wrFreq = false := rfl
@[simp] theorem resetRegisters_wrSr (s : State) : (s.resetRegisters).wrSr = false := rfl
@[simp] theorem resetRegisters_wrDelta (s : State) : (s.resetRegisters).wrDelta = false := rfl
@[simp] theorem resetRegisters_flt (s : State) : (s.resetRegisters).flt = s.flt := rfl
@[simp] theorem resetRegisters_k (s : State) : (s.resetRegisters).k = s.k := rfl
@[simp] theorem resetRegisters_out (s : State) : (s.resetRegisters).out = s.out := rfl
@[simp] theorem resetRegisters_run (s : State) : (s.resetRegisters).run = s.run := rfl
@[simp] theorem resetRegisters_shape (s : State) : (s.resetRegisters).shape = s.shape := rfl
@[simp] theorem resetRegisters_view (s : State) : (s.resetRegisters).view = s.view := rfl
@[simp] theorem resetRegisters_inst (s : State) : (s.resetRegisters).inst = s.inst := rfl
@[simp] theorem resetRegisters_draws (s : State) : (s.resetRegisters).draws = s.draws + 1 := rfl

@[simp] theorem placeNext_phase (s : State) (item : RunItem) : (s.placeNext item).phase = s.phase := rfl
@[simp] theorem placeNext_freq (s : State) (item : RunItem) : (s.placeNext item).freq = s.freq := rfl
@[simp] theorem placeNext_sr (s : State) (item : RunItem) : (s.placeNext item).sr = s.sr := rfl
@[simp] theorem placeNext_delta (s : State) (item : RunItem) : (s.placeNext item).delta = s.delta := rfl
@[simp] theorem placeNext_wrFreq (s : State) (item : RunItem) : (s.placeNext item).wrFreq = s.wrFreq := rfl
@[simp] theorem placeNext_wrSr (s : State) (item : RunItem) : (s.placeNext item).wrSr = s.wrSr := rfl
@[simp] theorem placeNext_wrDelta (s : State) (item : RunItem) : (s.placeNext item).wrDelta = s.wrDelta := rfl
@[simp] theorem placeNext_flt (s : State) (item : RunItem) : (s.placeNext item).flt = s.flt := rfl
@[simp] theorem placeNext_k (s : State) (item : RunItem) : (s.placeNext item).k = s.k := rfl
@[simp] theorem placeNext_out (s : State) (item : RunItem) : (s.placeNext item).out = s.out := rfl
@[simp] theorem placeNext_run (s : State) (item : RunItem) :
    (s.placeNext item).run =
      s.run.take s.k ++ List.replicate (s.k - s.run.length) (.command 0#72) ++ item :: s.run.drop (s.k + 1) := rfl
@[simp] theorem placeNext_shape (s : State) (item : RunItem) : (s.placeNext item).shape = s.shape := rfl
@[simp] theorem placeNext_view (s : State) (item : RunItem) : (s.placeNext item).view = s.view := rfl
@[simp] theorem placeNext_inst (s : State) (item : RunItem) : (s.placeNext item).inst = s.inst := rfl
@[simp] theorem placeNext_draws (s : State) (item : RunItem) : (s.placeNext item).draws = s.draws := rfl

/-! ### A reserved opcode on the hardware (30_encoding.md R69) -/

@[simp] theorem hardwareReserved_phase (s : State) (op : BitVec 8) (data : Word) :
    (s.hardwareReserved op data).phase = Config.reservedRegister s.inst s.draws op data s.registers 0 := rfl
@[simp] theorem hardwareReserved_freq (s : State) (op : BitVec 8) (data : Word) :
    (s.hardwareReserved op data).freq = Config.reservedRegister s.inst s.draws op data s.registers 1 := rfl
@[simp] theorem hardwareReserved_sr (s : State) (op : BitVec 8) (data : Word) :
    (s.hardwareReserved op data).sr = Config.reservedRegister s.inst s.draws op data s.registers 2 := rfl
@[simp] theorem hardwareReserved_delta (s : State) (op : BitVec 8) (data : Word) :
    (s.hardwareReserved op data).delta = Config.reservedRegister s.inst s.draws op data s.registers 3 := rfl
@[simp] theorem hardwareReserved_wrFreq (s : State) (op : BitVec 8) (data : Word) :
    (s.hardwareReserved op data).wrFreq = s.wrFreq := rfl
@[simp] theorem hardwareReserved_wrSr (s : State) (op : BitVec 8) (data : Word) :
    (s.hardwareReserved op data).wrSr = s.wrSr := rfl
@[simp] theorem hardwareReserved_wrDelta (s : State) (op : BitVec 8) (data : Word) :
    (s.hardwareReserved op data).wrDelta = s.wrDelta := rfl
@[simp] theorem hardwareReserved_flt (s : State) (op : BitVec 8) (data : Word) :
    (s.hardwareReserved op data).flt = s.flt := rfl
@[simp] theorem hardwareReserved_k (s : State) (op : BitVec 8) (data : Word) :
    (s.hardwareReserved op data).k = s.k := rfl
@[simp] theorem hardwareReserved_out (s : State) (op : BitVec 8) (data : Word) :
    (s.hardwareReserved op data).out = s.out ++ (Config.reservedResponse s.inst s.draws op data s.registers).toList := rfl
@[simp] theorem hardwareReserved_run (s : State) (op : BitVec 8) (data : Word) :
    (s.hardwareReserved op data).run = s.run := rfl
@[simp] theorem hardwareReserved_shape (s : State) (op : BitVec 8) (data : Word) :
    (s.hardwareReserved op data).shape = s.shape := rfl
@[simp] theorem hardwareReserved_view (s : State) (op : BitVec 8) (data : Word) :
    (s.hardwareReserved op data).view = s.view := rfl
@[simp] theorem hardwareReserved_inst (s : State) (op : BitVec 8) (data : Word) :
    (s.hardwareReserved op data).inst = s.inst := rfl
@[simp] theorem hardwareReserved_draws (s : State) (op : BitVec 8) (data : Word) :
    (s.hardwareReserved op data).draws = s.draws + 1 := rfl

/-! ### Reads -/

@[simp] theorem readReg_phase (s : State) : s.readReg .phase = s.phase := rfl
@[simp] theorem readReg_freq (s : State) : s.readReg .freq = s.freq := rfl
@[simp] theorem readReg_sr (s : State) : s.readReg .sr = s.sr := rfl
@[simp] theorem readReg_delta (s : State) : s.readReg .delta = s.delta := rfl
@[simp] theorem isWritten_phase (s : State) : s.isWritten .phase = true := rfl
@[simp] theorem isWritten_freq (s : State) : s.isWritten .freq = s.wrFreq := rfl
@[simp] theorem isWritten_sr (s : State) : s.isWritten .sr = s.wrSr := rfl
@[simp] theorem isWritten_delta (s : State) : s.isWritten .delta = s.wrDelta := rfl
@[simp] theorem mayRead_hardware (s : State) (r : Reg) (h : s.view = .hardware) : s.mayRead r = true := by
  simp [State.mayRead, h]
@[simp] theorem mayRead_checked (s : State) (r : Reg) (h : s.view = .checked) : s.mayRead r = s.isWritten r := by
  simp [State.mayRead, h]

/-- A command goes on to read a register on the hardware, and in the checked view once the register is marked. -/
theorem mayRead_iff (s : State) (r : Reg) : s.mayRead r = true ↔ s.view = .hardware ∨ s.isWritten r = true := by
  cases h : s.view <;> simp [h]

end Sys2Proof.Machine
end

