-- ==== Sys2Proof/Laws/Ops.lean ====
section
/-! SUPPORT. What each shared operation can do, said once: later proofs cite these and do not unfold the operation. -/

namespace Sys2Proof.Machine

/-! ### Sound and faulted states (60_exceptions.md R138) -/

@[simp] theorem whileSound_sound (s : State) (body : State → State) (h : s.flt = none) :
    s.whileSound body = .next (body s) := by
  simp [State.whileSound, h]

@[simp] theorem whileSound_faulted (s : State) (body : State → State) (m : FaultMark) (h : s.flt = some m) :
    s.whileSound body = .fault m.reason := by
  simp [State.whileSound, h]

/-- `whileSound` answers a next state exactly from a sound state. -/
theorem whileSound_next_iff (s t : State) (body : State → State) :
    s.whileSound body = .next t ↔ s.flt = none ∧ body s = t := by
  unfold State.whileSound
  split <;> simp_all

theorem whileSound_not_refused (s : State) (body : State → State) (r : Refusal) :
    s.whileSound body ≠ .refused r := by
  unfold State.whileSound
  split <;> simp

/-! ### Commands -/

@[simp] theorem command_unguarded (s : State) (body : State → State) (h : s.flt = none) :
    s.command none body = .next (body s).advance := by
  simp [State.command, h]

@[simp] theorem command_readable (s : State) (r : Reg) (reason : Fault) (body : State → State) (h : s.flt = none)
    (w : s.mayRead r = true) : s.command (some (r, reason)) body = .next (body s).advance := by
  simp [State.command, h, w]

@[simp] theorem command_unreadable (s : State) (r : Reg) (reason : Fault) (body : State → State) (h : s.flt = none)
    (w : s.mayRead r = false) : s.command (some (r, reason)) body = .next (s.raise reason) := by
  simp [State.command, h, w]

@[simp] theorem command_faulted (s : State) (g : Option (Reg × Fault)) (body : State → State) (m : FaultMark)
    (h : s.flt = some m) : s.command g body = .fault m.reason := by
  simp [State.command, h]

/-- All a command can do when it answers a next state: its effect and one step of `k`, or the fault of its guard. -/
theorem command_next (s t : State) (g : Option (Reg × Fault)) (body : State → State)
    (h : s.command g body = .next t) :
    s.flt = none ∧ (t = (body s).advance ∨
      ∃ r reason, g = some (r, reason) ∧ s.mayRead r = false ∧ t = s.raise reason) := by
  obtain ⟨sound, eq⟩ := (whileSound_next_iff _ _ _).mp h
  refine ⟨sound, ?_⟩
  match g with
  | none => exact .inl eq.symm
  | some (r, reason) =>
    cases w : s.mayRead r with
    | true => exact .inl (by simpa [w] using eq.symm)
    | false => exact .inr ⟨r, reason, rfl, w, by simpa [w] using eq.symm⟩

/-- On the hardware a command always has its effect (60_exceptions.md R135). -/
theorem command_hardware (s : State) (g : Option (Reg × Fault)) (body : State → State) (h : s.flt = none)
    (v : s.view = .hardware) : s.command g body = .next (body s).advance := by
  match g with
  | none => exact command_unguarded s body h
  | some (r, reason) => exact command_readable s r reason body h (mayRead_hardware s r v)

/-! ### Reserved opcodes (30_encoding.md R69) -/

@[simp] theorem takeReserved_hardware (s : State) (op : BitVec 8) (data : Word) (h : s.flt = none)
    (v : s.view = .hardware) :
    s.takeReserved op data = .next (s.hardwareReserved op data).advance := by
  simp [State.takeReserved, h, v]

@[simp] theorem takeReserved_checked (s : State) (op : BitVec 8) (data : Word) (h : s.flt = none)
    (v : s.view = .checked) :
    s.takeReserved op data = .next (s.raise (.reserved op)) := by
  simp [State.takeReserved, h, v]

/-! ### Free draws (00_scope.md R18) -/

@[simp] theorem withResult_num (s : State) (v : Word) (body : Word → State → State) :
    s.withResult (.num v) body = body v s := rfl

@[simp] theorem withResult_nan (s : State) (body : Word → State → State) :
    s.withResult .nan body = body (nanPattern (Config.nanDraw s.inst s.draws)) { s with draws := s.draws + 1 } := rfl

/-- A result is a fixed value with no draw made, or a NaN pattern with one draw counted. -/
theorem withResult_cases (s : State) (r : FResult) (body : Word → State → State) :
    (∃ v, r = .num v ∧ s.withResult r body = body v s) ∨
      (∃ v, r = .nan ∧ isNaN v = true ∧ s.withResult r body = body v { s with draws := s.draws + 1 }) := by
  cases r with
  | num v => exact .inl ⟨v, rfl, rfl⟩
  | nan => exact .inr ⟨_, rfl, isNaN_nanPattern _, rfl⟩

/-- Whatever the result, only the value that goes on and the number of draws made depend on it. -/
theorem withResult_draws (s : State) (r : FResult) (body : Word → State → State) :
    ∃ v n, s.withResult r body = body v { s with draws := n } := by
  rcases withResult_cases s r body with ⟨v, _, e⟩ | ⟨v, _, _, e⟩
  · exact ⟨v, s.draws, e⟩
  · exact ⟨v, s.draws + 1, e⟩

/-! ### The sine (42_process.md R112, 00_scope.md R18) -/

@[simp] theorem fsin_finite (inst : Nat) (x : Word) (h : isFinite x = true) :
    fsin inst x = .num ((instanceSin inst).eval x) := by
  simp [fsin, h]

@[simp] theorem fsin_nonfinite (inst : Nat) (x : Word) (h : isFinite x = false) : fsin inst x = .nan := by
  simp [fsin, h]

/-! ### The shaper (42_process.md R107, R108) -/

@[simp] theorem withShaped_ramp (s : State) (p : Word) (body : Word → State → State) (h : s.shape = .ramp) :
    s.withShaped p body = body p s := by
  simp [State.withShaped, h]

@[simp] theorem withShaped_sine (s : State) (p : Word) (body : Word → State → State) (h : s.shape = .sine) :
    s.withShaped p body = s.withResult (fmul p fTwoPi) fun x s => s.withResult (fsin s.inst x) body := by
  simp [State.withShaped, h]

/-- Shaping only chooses the value that goes on and how many draws were made. -/
theorem withShaped_cases (s : State) (p : Word) (body : Word → State → State) :
    ∃ y n, s.withShaped p body = body y { s with draws := n } := by
  unfold State.withShaped
  split
  · exact ⟨p, s.draws, rfl⟩
  · rcases withResult_cases s (fmul p fTwoPi) fun x s => s.withResult (fsin s.inst x) body with
      ⟨x, _, e⟩ | ⟨x, _, _, e⟩ <;> rw [e]
    · exact withResult_draws s (fsin s.inst x) body
    · exact withResult_draws { s with draws := s.draws + 1 } (fsin s.inst x) body

/-! ### The step, by the next item -/

theorem step_of_end (s : State) (h : s.nextItem = none) : step s = s.idle := by simp [step, h]

theorem step_of_reset (s : State) (h : s.nextItem = some .reset) : step s = s.resetEvent := by simp [step, h]

theorem step_of_word (s : State) (w : CmdWord) (h : s.nextItem = some (.command w)) :
    step s = match decode w with
      | .command i => exec i s
      | .reserved op => s.takeReserved op (dataField w) := by simp only [step, h]; try rfl

/-- Setting the next item sets the next item. -/
@[simp] theorem nextItem_placeNext (s : State) (item : RunItem) : (s.placeNext item).nextItem = some item := by
  have len : (s.run.take s.k ++ List.replicate (s.k - s.run.length) (RunItem.command 0#72)).length = s.k := by
    simp; omega
  have h := List.getElem?_append_right (l₁ := s.run.take s.k ++ List.replicate (s.k - s.run.length) (.command 0#72))
    (l₂ := item :: s.run.drop (s.k + 1)) (i := s.k) (by rw [len])
  rw [len, Nat.sub_self] at h
  simpa [State.nextItem] using h

/-! ### The host's side of the handshake (60_exceptions.md R146) -/

/-- An edge answers a next block only from a sound core and a host that keeps the handshake. -/
theorem edge_next (b b' : Block) (h : HostPins) (e : b.edge h = .next b') :
    b.core.flt = none ∧ hostHolds b.offer h = true ∧
      (if h.rst then { b with offer := b.standingOffer h }.resetEdge
        else { b with offer := b.standingOffer h }.workEdge h) = .next b' := by
  unfold Block.edge at e
  split at e
  · cases e
  · split at e
    · exact ⟨‹_›, ‹_›, e⟩
    · cases e

/-! ### Instances (60_exceptions.md R147) -/

/-- A move of one instance keeps every other and the number of them. -/
theorem onInstance_next {α : Type} (move : α → Host.Outcome α Fault Refusal) (n : Nat) (all after : List α)
    (e : onInstance move n all = .next after) :
    (all[n]? = none ∧ after = all) ∨ ∃ one one', all[n]? = some one ∧ move one = .next one' ∧ after = all.set n one' := by
  unfold onInstance at e
  split at e
  · exact .inl ⟨‹_›, by simpa using e.symm⟩
  · split at e
    · exact .inr ⟨_, _, ‹_›, ‹_›, by simpa using e.symm⟩
    · cases e
    · cases e

end Sys2Proof.Machine
end

