-- ==== Sys2Proof/Laws/PerInstr.lean ====
section
/-! SUPPORT. What holds of every command as syntax, one lemma per constructor: its encoding has its opcode in `OP` and
its operand, or 0, in `DATA` (30_encoding.md R65, R67, R82), and it is well formed (R66). -/

namespace Sys2Proof.Laws

open Sys2Proof.Machine

theorem opField_commandWord (op : BitVec 8) (data : Word) : opField (commandWord op data) = op := by
  apply BitVec.eq_of_toNat_eq
  have hd := data.isLt
  have ho := op.isLt
  simp only [opField, commandWord, BitVec.extractLsb'_toNat, BitVec.toNat_append]
  rw [Nat.shiftLeft_eq, Nat.shiftRight_eq_div_pow, Nat.mul_comm, ← Nat.two_pow_add_eq_or_of_lt hd]
  omega

theorem dataField_commandWord (op : BitVec 8) (data : Word) : dataField (commandWord op data) = data := by
  apply BitVec.eq_of_toNat_eq
  have hd := data.isLt
  have ho := op.isLt
  simp only [dataField, commandWord, BitVec.extractLsb'_toNat, BitVec.toNat_append]
  rw [Nat.shiftLeft_eq, Nat.shiftRight_eq_div_pow, Nat.mul_comm, ← Nat.two_pow_add_eq_or_of_lt hd]
  omega

/-- The fields of a command's word, and that the command is legal. -/
def FieldsOfEncoding.Statement (i : Instr) : Prop :=
  i.wellFormed = true ∧ opField (encode i) = opcode i ∧ dataField (encode i) = (operand i).getD 0#64

theorem FieldsOfEncoding.of_wellFormed (i : Instr) (h : i.wellFormed = true) : FieldsOfEncoding.Statement i :=
  ⟨h, opField_commandWord _ _, dataField_commandWord _ _⟩

theorem FieldsOfEncoding.nop : FieldsOfEncoding.Statement .nop := of_wellFormed _ rfl
theorem FieldsOfEncoding.setsr (rate : Word) : FieldsOfEncoding.Statement (.setsr rate) := of_wellFormed _ rfl
theorem FieldsOfEncoding.setf (freq : Word) : FieldsOfEncoding.Statement (.setf freq) := of_wellFormed _ rfl
theorem FieldsOfEncoding.setph (phase : Word) : FieldsOfEncoding.Statement (.setph phase) := of_wellFormed _ rfl
theorem FieldsOfEncoding.offph (offset : Word) : FieldsOfEncoding.Statement (.offph offset) := of_wellFormed _ rfl
theorem FieldsOfEncoding.proc : FieldsOfEncoding.Statement .proc := of_wellFormed _ rfl
theorem FieldsOfEncoding.rdph : FieldsOfEncoding.Statement .rdph := of_wellFormed _ rfl
theorem FieldsOfEncoding.rdf : FieldsOfEncoding.Statement .rdf := of_wellFormed _ rfl
theorem FieldsOfEncoding.rdsr : FieldsOfEncoding.Statement .rdsr := of_wellFormed _ rfl
theorem FieldsOfEncoding.rdd : FieldsOfEncoding.Statement .rdd := of_wellFormed _ rfl

end Sys2Proof.Laws
end

