-- ==== Sys2Proof/Tests/Slice0.lean ====
section
/-! SUPPORT. Tests whose expected values come from spec/ (30_encoding.md R84, 95_test_vectors.md; each names its vector),
the smoke test of WellFormed, and for every statement with hypotheses a witness that meets them together. -/

namespace Sys2Proof.Tests

open Sys2Proof.Machine

/-! ### Decoding: one word per command, written out from the encoding (R65, R67, R84, vectors V-ENC) -/

theorem test_decode_nop : decode 0x00FFFFFFFFFFFFFFFF#72 = .command .nop := by decide
theorem test_decode_setsr : decode 0x0140E5888000000000#72 = .command (.setsr 0x40E5888000000000#64) := by decide
theorem test_decode_setf : decode 0x023FD0000000000000#72 = .command (.setf 0x3FD0000000000000#64) := by decide
theorem test_decode_setph : decode 0x038000000000000000#72 = .command (.setph 0x8000000000000000#64) := by decide
theorem test_decode_offph : decode 0x043FD3333333333333#72 = .command (.offph 0x3FD3333333333333#64) := by decide
theorem test_decode_proc : decode 0x05123456789ABCDEF0#72 = .command .proc := by decide
theorem test_decode_rdph : decode 0x060000000000000000#72 = .command .rdph := by decide
theorem test_decode_rdf : decode 0x070000000000000000#72 = .command .rdf := by decide
theorem test_decode_rdsr : decode 0x080000000000000000#72 = .command .rdsr := by decide
theorem test_decode_rdd : decode 0x090000000000000000#72 = .command .rdd := by decide
theorem test_decode_reserved_low : decode 0x0A0000000000000000#72 = .reserved 0x0A#8 := by decide
theorem test_decode_reserved_high : decode 0xFF3FF0000000000000#72 = .reserved 0xFF#8 := by decide
theorem test_decode_table_word : decodeTableWord 72 0x023FD0000000000000 = some (.setf 0x3FD0000000000000#64) := by
  decide
theorem test_encode_setf : encode (.setf 0x3FD0000000000000#64) = 0x023FD0000000000000#72 := by decide
theorem test_encode_rdd : encode .rdd = 0x090000000000000000#72 := by decide

/-! ### WellFormed: each check refuses an ill-formed term -/

theorem smoke_reserved_word : assignedWord 0x0A0000000000000000#72 = false := by decide
theorem smoke_last_assigned_word : assignedWord 0x090000000000000000#72 = true := by decide
theorem smoke_ignored_data_not_canonical : canonicalWord 0x050000000000000001#72 = false := by decide
theorem smoke_reserved_not_canonical : canonicalWord 0x0A0000000000000000#72 = false := by decide
theorem smoke_setf_before_setsr :
    orderedRun ⟨false, false, false⟩ [.command 0x023FF0000000000000#72] = false := by decide
theorem smoke_proc_before_setf :
    orderedRun ⟨false, true, false⟩ [.command 0x050000000000000000#72] = false := by decide
theorem smoke_rdf_before_setf :
    orderedRun ⟨false, true, false⟩ [.command 0x070000000000000000#72] = false := by decide
theorem smoke_rdsr_after_reset :
    orderedRun ⟨true, true, true⟩ [.reset, .command 0x080000000000000000#72] = false := by decide
theorem smoke_rdd_before_setf :
    orderedRun ⟨false, false, false⟩ [.command 0x090000000000000000#72] = false := by decide
theorem smoke_reserved_in_run : orderedRun ⟨true, true, true⟩ [.command 0x0B0000000000000000#72] = false := by decide
theorem smoke_boot_order : orderedRun ⟨false, false, false⟩
    [.command 0x014020000000000000#72, .command 0x023FF0000000000000#72, .command 0x050000000000000000#72] = true := by
  decide

/-! ### One step of each command (95_test_vectors.md section 2) -/

/-- The checked view right after reset, where the vectors of section 2 start. -/
def checkedReset : State := State.start .checked 0 .ramp []

/-- A configured instance, in the checked view. -/
def live (shape : Shape) (phase delta : Word) : State :=
  { State.start .checked 0 shape [] with phase := phase, delta := delta, wrFreq := true, wrSr := true, wrDelta := true }

/-- A configured instance whose sample rate is `rate`. -/
def rated (rate : Word) : State := { live .ramp 0x3FE4000000000000#64 0 with sr := rate }

/-- A part of the next state, if there is one. -/
def nextOf {α : Type} (o : StepResult) (part : State → α) : Option α :=
  match o with
  | .next t => some (part t)
  | _ => none

/-- V-NOP-2. -/
theorem test_nop_after_reset :
    nextOf (exec .nop State.reset) (fun t => (t.phase, t.out, t.k, t.flt)) = some (0, [], 1, none) := by decide

/-- V-SETSR-4: DELTA is left stale. -/
theorem test_setsr_leaves_delta : nextOf (exec (.setsr 0x4010000000000000#64) (live .ramp 0 0x3FC0000000000000#64))
    (fun t => (t.sr, t.delta)) = some (0x4010000000000000#64, 0x3FC0000000000000#64) := by decide

/-- V-SETSR-3: a NaN is stored as given. -/
theorem test_setsr_stores_nan : nextOf (exec (.setsr 0x7FF8000000000000#64) State.reset)
    (fun t => (t.sr, t.wrSr, t.wrDelta)) = some (0x7FF8000000000000#64, true, false) := by decide

/-- V-SETF-1: an inexact quotient; PHASE is kept (V-SETF-20). -/
theorem test_setf_rounds : nextOf (exec (.setf 0x3FD0000000000000#64) (rated 0x40E5888000000000#64))
    (fun t => (t.freq, t.delta, t.phase)) =
      some (0x3FD0000000000000#64, 0x3ED7C6F8C751F177#64, 0x3FE4000000000000#64) := by decide +kernel

/-- V-SETF-19: SETF before any SETSR. -/
theorem test_setf_unwritten_sr : nextOf (exec (.setf 0x3FF0000000000000#64) checkedReset)
    (fun t => (t.flt, t.k, t.wrFreq, t.wrDelta)) = some (some ⟨.uninitSr, 0⟩, 0, false, false) := by decide

/-- V-SETPH-3: a NaN is kept bit for bit. -/
theorem test_setph_keeps_nan : nextOf (exec (.setph 0x7FF0000000000001#64) (live .ramp 0x3FE0000000000000#64 0))
    (fun t => t.phase) = some 0x7FF0000000000001#64 := by decide

/-- V-OFFPH-1: 0.9 + 0.3, rounded and not wrapped. -/
theorem test_offph_does_not_wrap :
    nextOf (exec (.offph 0x3FD3333333333333#64) (live .ramp 0x3FECCCCCCCCCCCCD#64 0)) (fun t => t.phase) =
      some 0x3FF3333333333333#64 := by decide +kernel

/-- V-OFFPH-2: +0 + -0 is +0. -/
theorem test_offph_zero_sign : nextOf (exec (.offph 0x8000000000000000#64) State.reset) (fun t => t.phase) =
    some 0x0000000000000000#64 := by decide +kernel

/-- V-PROC-3: the sum rounds and the subtraction is exact. -/
theorem test_proc_wraps :
    nextOf (exec .proc (live .ramp 0x3FECCCCCCCCCCCCD#64 0x3FC0000000000000#64)) (fun t => (t.phase, t.out)) =
      some (0x3F99999999999980#64, [0x3F99999999999980#64]) := by decide +kernel

/-- V-PROC-S1: the SINE response is `SIN` of the rounded product, and PHASE is the unshaped sum. -/
theorem test_proc_sine : nextOf (exec .proc (live .sine 0x0000000000000000#64 0x3FD0000000000000#64))
      (fun t => (t.phase, t.out)) =
    some (0x3FD0000000000000#64, [(instanceSin 0).eval 0x3FF921FB54442D18#64]) := by
  have sum : fadd 0x0000000000000000#64 0x3FD0000000000000#64 = .num 0x3FD0000000000000#64 := by decide +kernel
  have same : wrap 0x3FD0000000000000#64 = .num 0x3FD0000000000000#64 := by decide +kernel
  have product : fmul 0x3FD0000000000000#64 fTwoPi = .num 0x3FF921FB54442D18#64 := by decide +kernel
  have finite : isFinite 0x3FF921FB54442D18#64 = true := by decide +kernel
  simp [exec, execProc, live, State.start, State.command, State.whileSound, State.mayRead, State.withShaped, fsin,
    nextOf, sum, same, product, finite]

/-- V-RD-1 and V-RD-8's kind: PHASE comes back as stored. -/
theorem test_rdph : nextOf (exec .rdph (live .ramp 0x8000000000000000#64 0)) (fun t => (t.out, t.phase)) =
    some ([0x8000000000000000#64], 0x8000000000000000#64) := by decide

/-- V-RD-2. -/
theorem test_rdf_unwritten : nextOf (exec .rdf checkedReset) (fun t => (t.flt, t.out, t.k)) =
    some (some ⟨.uninitFreq, 0⟩, [], 0) := by decide

/-- V-RD-6's kind: SR as last written. -/
theorem test_rdsr : nextOf (exec .rdsr (rated 0x4010000000000000#64)) (fun t => t.out) =
    some [0x4010000000000000#64] := by decide

/-- V-RD-5's kind: DELTA as computed. -/
theorem test_rdd : nextOf (exec .rdd (live .ramp 0 0x3ED7C6F8C751F177#64)) (fun t => t.out) =
    some [0x3ED7C6F8C751F177#64] := by decide

/-- R137's last column: on the hardware RDF before any SETF returns what FREQ holds. -/
theorem test_rdf_unwritten_hardware :
    nextOf (exec .rdf { State.reset with freq := 0x7FF8000000000000#64 }) (fun t => (t.out, t.flt, t.k)) =
      some ([0x7FF8000000000000#64], none, 1) := by decide

/-- R137's last column: on the hardware RDSR before any SETSR returns what SR holds. -/
theorem test_rdsr_unwritten_hardware :
    nextOf (exec .rdsr { State.reset with sr := 0x4020000000000000#64 }) (fun t => (t.out, t.flt, t.k)) =
      some ([0x4020000000000000#64], none, 1) := by decide

/-- R137's last column: on the hardware RDD before any SETF returns what DELTA holds. -/
theorem test_rdd_unwritten_hardware :
    nextOf (exec .rdd { State.reset with delta := 0x3FC0000000000000#64 }) (fun t => (t.out, t.flt, t.k)) =
      some ([0x3FC0000000000000#64], none, 1) := by decide

/-- V-RST-1: what reset leaves. -/
theorem test_reset_event :
    nextOf (step { live .ramp 0x3FE3333333333333#64 0x3FC0000000000000#64 with run := [.reset], out := [7] })
      (fun t => (t.phase, t.marks, t.out, t.k)) = some (0, ⟨false, false, false⟩, [7], 1) := by decide

/-- V-ENC-4: a reserved opcode. -/
theorem test_reserved : nextOf (step (checkedReset.withFetchWord 72 0x0A0000000000000000))
    (fun t => (t.flt, t.k, t.phase)) = some (some ⟨.reserved 0x0A#8, 0⟩, 0, 0) := by decide

/-! ### The physical interface and assembly -/

/-- R84, R79: text to word. -/
theorem test_assemble_setsr : assembleLine "SETSR 44100 ; rate".toList =
    some [.command 0x0140E5888000000000#72] := by decide +kernel

/-- R81's own example. -/
theorem test_listing : listing (encode (.setf 0x3FD0000000000000#64)) = "02_3FD0000000000000".toList := by decide +kernel

/-- R11: 0.1 is the nearest binary64 value. -/
theorem test_decimal_literal : operandLiteral "0.1".toList = some 0x3FB999999999999A#64 := by decide +kernel

/-! ### Witnesses: states and operands that meet each statement's hypotheses, at the boundaries of its clauses -/

/-- A configured instance with one item to execute. -/
def loaded (item : RunItem) : State := { live .ramp 0 0 with run := [item] }

theorem witness_EncodedCommandDecodes : (Instr.setf 0x8000000000000001#64).wellFormed = true := by decide

theorem witness_CanonicalWordIsEncoding : canonicalWord 0x000000000000000000#72 = true ∧
    canonicalWord 0x04FFFFFFFFFFFFFFFF#72 = true ∧ canonicalWord 0x090000000000000000#72 = true := by decide

theorem witness_ReservedOpcodesByNumber : decode 0x0AFFFFFFFFFFFFFFFF#72 = .reserved 0x0A#8 ∧
    decode 0x09FFFFFFFFFFFFFFFF#72 = .command .rdd := by decide

theorem witness_DataNeverChangesTheCommand : decode (commandWord 0xFF 1) = .reserved 0xFF#8 ∧
    (decode (commandWord 0x05 1) = .command .proc ∧ operand .proc = none) ∧
    (decode (commandWord 0x04 1) = .command (.offph 1) ∧ operand (.offph 1) = some 1) := by decide

theorem witness_StepRunsTheDecodedCommand :
    (loaded (.command 0x050000000000000000#72)).nextItem = some (.command 0x050000000000000000#72) ∧
      decode 0x050000000000000000#72 = .command .proc ∧ Instr.proc.wellFormed = true := by decide

theorem witness_ReservedOpcodeFaults : (loaded (.command 0x0A0000000000000000#72)).flt = none ∧
    (loaded (.command 0x0A0000000000000000#72)).nextItem = some (.command 0x0A0000000000000000#72) ∧
      0x0A ≤ (opField 0x0A0000000000000000#72).toNat ∧ (loaded (.command 0x0A0000000000000000#72)).view = .checked ∧
      { loaded (.command 0x0A0000000000000000#72) with view := .hardware }.view = .hardware := by decide

theorem witness_ResetEventEffect : (loaded .reset).flt = none ∧ (loaded .reset).nextItem = some .reset := by decide

theorem witness_FaultedStateHasNoStep : ((loaded .reset).raise .uninitSr).flt = some ⟨.uninitSr, 0⟩ := by decide

theorem witness_EndOfRunHoldsEverything : State.reset.flt = none ∧ State.reset.run.length ≤ State.reset.k := by decide

theorem witness_DeliveredWordRunsNext : decodeTableWord 72 0x01FFFFFFFFFFFFFFFF = some (.setsr 0xFFFFFFFFFFFFFFFF#64) ∧
    decodeTableWord 8 0x00 = some .nop := by decide

/-- The hypotheses of the ten command statements: sound, with the mark set, and with it clear. -/
theorem witness_commands : (live .sine 0 0).flt = none ∧ (live .sine 0 0).wrSr = true ∧
    (live .sine 0 0).wrFreq = true ∧ (live .sine 0 0).wrDelta = true ∧ (live .sine 0 0).shape = .sine ∧
    (checkedReset.flt = none ∧ checkedReset.view = .checked ∧ checkedReset.wrSr = false ∧
      checkedReset.wrFreq = false ∧ checkedReset.wrDelta = false) ∧
    (State.reset.flt = none ∧ State.reset.view = .hardware ∧ State.reset.wrDelta = false ∧ State.reset.shape = .ramp) := by decide

theorem witness_ProcAdvancesWrapsAndEmits : ∃ s : State,
    s.flt = none ∧ s.wrDelta = true ∧ s.shape = .ramp ∧ s.phase = 0x3FE8000000000000#64 ∧
      s.delta = 0x3FD0000000000000#64 :=
  ⟨live .ramp 0x3FE8000000000000#64 0x3FD0000000000000#64, by decide⟩

/-- 1 + 2^-1074 (a rounded sum), 1 - 1, -0 + -0, the greatest finite value twice (overflow), and a NaN. -/
theorem witness_SumIsCorrectlyRounded :
    (isFinite 0x0000000000000001#64 = true ∧ value 0x3FF0000000000000#64 + value 0x0000000000000001#64 ≠ 0) ∧
    (value 0x3FF0000000000000#64 + value 0xBFF0000000000000#64 = 0 ∧ isFinite 0xBFF0000000000000#64 = true) ∧
    (value 0x8000000000000000#64 + value 0x8000000000000000#64 = 0 ∧ isFinite 0x8000000000000000#64 = true) ∧
    (isFinite 0x7FEFFFFFFFFFFFFF#64 = true ∧ value 0x7FEFFFFFFFFFFFFF#64 + value 0x7FEFFFFFFFFFFFFF#64 ≠ 0) ∧
    isNaN 0x7FF0000000000001#64 = true := by decide +kernel

theorem witness_ProductIsCorrectlyRounded :
    (isFinite 0x0000000000000001#64 = true ∧ isFinite 0x7FEFFFFFFFFFFFFF#64 = true) ∧
    isNaN 0xFFF8000000000000#64 = true ∧ isZero 0x8000000000000000#64 = true ∧
    (isNaN 0x0000000000000001#64 = false ∧ isZero 0x0000000000000001#64 = false) ∧
    (isNaN 0x7FF0000000000000#64 = false ∧ isZero 0x7FF0000000000000#64 = false) := by decide +kernel

theorem witness_QuotientIsCorrectlyRounded :
    (isFinite 0x7FEFFFFFFFFFFFFF#64 = true ∧ isFinite 0x0000000000000001#64 = true ∧
      isZero 0x0000000000000001#64 = false) ∧
    isNaN 0x7FF8000000000000#64 = true ∧ (isZero 0x0000000000000000#64 = true ∧ isZero 0x8000000000000000#64 = true) ∧
    (isNaN 0xFFF0000000000000#64 = false ∧ isZero 0xFFF0000000000000#64 = false) ∧
    isFinite 0x0000000000000000#64 = true := by decide +kernel

theorem witness_NaNDrawCoversEveryNaN : isNaN 0x7FF0000000000001#64 = true ∧ isNaN 0xFFFFFFFFFFFFFFFF#64 = true ∧
    isNaN 0x7FF0000000000000#64 = false := by decide +kernel

theorem witness_ComparisonIsOrdered : isFinite 0x7FEFFFFFFFFFFFFF#64 = true ∧ isFinite 0x8000000000000000#64 = true ∧
    isNaN 0x7FF8000000000000#64 = true := by decide +kernel

/-- The least value above 1.0, 2.0, 2^54, 1.0 itself and a NaN. -/
theorem witness_WrapIsOneConditionalSubtraction :
    (fgt 0x3FF0000000000001#64 0x3FF0000000000000#64 = true ∧ isFinite 0x3FF0000000000001#64 = true ∧
      1 < value 0x3FF0000000000001#64 ∧ value 0x3FF0000000000001#64 ≤ 2) ∧
    (isFinite 0x4000000000000000#64 = true ∧ 1 < value 0x4000000000000000#64 ∧ value 0x4000000000000000#64 ≤ 2) ∧
    (isFinite 0x4350000000000000#64 = true ∧ 2 ^ 54 ≤ value 0x4350000000000000#64) ∧
    fgt 0x3FF0000000000000#64 0x3FF0000000000000#64 = false ∧
    fgt 0x7FF8000000000000#64 0x3FF0000000000000#64 = false := by decide +kernel

/-- A subnormal, the last value whose product does not overflow and the next, an overflowing double, and a NaN. -/
theorem witness_SineArgumentForms :
    fmul 0x0000000000000001#64 0x4000000000000000#64 = .num 0x0000000000000002#64 ∧
    fmul 0x7FEFFFFFFFFFFFFF#64 0x4000000000000000#64 = .num 0x7FF0000000000000#64 ∧
    fmul 0x7FF8000000000000#64 0x4000000000000000#64 = .nan ∧
    fmul 0x7FC45F306DC9C882#64 0x401921FB54442D18#64 = .num 0x7FEFFFFFFFFFFFFF#64 ∧
    fmul 0x7FC45F306DC9C883#64 0x401921FB54442D18#64 = .num 0x7FF0000000000000#64 := by decide +kernel

/-- Both ends of [0, 1], with either zero. -/
theorem witness_inUnit : inUnit 0x0000000000000000#64 ∧ inUnit 0x8000000000000000#64 ∧ inUnit 0x3FF0000000000000#64 ∧
    inUnit 0x3FC0000000000000#64 := by decide +kernel

theorem witness_ProcKeepsPhaseInUnit : ∃ s : State,
    s.flt = none ∧ s.mayRead .delta = true ∧ inUnit s.phase ∧ inUnit s.delta :=
  ⟨live .ramp 0x3FF0000000000000#64 0x3FF0000000000000#64, by decide +kernel⟩

/-- The statements over PROC take in the hardware before any SETF. -/
theorem witness_unwritten_on_hardware : State.reset.flt = none ∧ State.reset.wrDelta = false ∧
    State.reset.mayRead .delta = true ∧ inUnit State.reset.phase ∧ inUnit State.reset.delta := by decide +kernel

theorem witness_ProcRunStaysInUnit : ∃ s : State,
    s.flt = none ∧ s.mayRead .delta = true ∧ inUnit s.phase ∧ inUnit s.delta ∧ s.rest = procItems 3 ∧ 2 ≤ 3 ∧
      s.shape = .ramp :=
  ⟨{ live .ramp 0x3FE0000000000000#64 0x3FC0000000000000#64 with run := procItems 3 }, by decide +kernel⟩

theorem witness_NegativeStepNeverWraps : ∃ s : State,
    s.flt = none ∧ s.mayRead .delta = true ∧ isFinite s.phase = true ∧ isFinite s.delta = true ∧ value s.delta < 0 ∧
      value s.phase ≤ 1 :=
  ⟨live .ramp 0x3FF0000000000000#64 0x8000000000000001#64, by decide +kernel⟩

theorem witness_UnitStepStaysPut : ∃ s : State,
    s.flt = none ∧ s.mayRead .delta = true ∧ s.delta = 0x3FF0000000000000#64 ∧ isFinite s.phase = true ∧
      0 ≤ value s.phase :=
  ⟨live .ramp 0x4340000000000001#64 0x3FF0000000000000#64, by decide +kernel⟩

/-- A NaN phase, a kept infinity, a finite phase with an infinite step of either sign, and opposite infinities. -/
theorem witness_NonFinitePhasePropagates :
    isNaN (live .sine 0x7FF8000000000000#64 0).phase = true ∧
    ((live .sine 0xFFF0000000000000#64 0).phase = infOf true ∧ isNaN (live .sine 0xFFF0000000000000#64 0).delta = false ∧
      (live .sine 0xFFF0000000000000#64 0).delta ≠ infOf (!true)) ∧
    (isFinite (live .ramp 0x7FEFFFFFFFFFFFFF#64 0xFFF0000000000000#64).phase = true ∧
      (live .ramp 0x7FEFFFFFFFFFFFFF#64 0xFFF0000000000000#64).delta = infOf true ∧
      (live .sine 0 0x7FF0000000000000#64).delta = infOf false) ∧
    ((live .ramp 0x7FF0000000000000#64 0xFFF0000000000000#64).phase = infOf false ∧
      (live .ramp 0x7FF0000000000000#64 0xFFF0000000000000#64).delta = infOf (!false)) := by decide +kernel

theorem witness_SineStatements : (live .sine 0 0).flt = none ∧ (live .sine 0 0).mayRead .delta = true ∧
    (live .sine 0 0).shape = .sine := by decide

/-- New phases at the boundaries of the sign clauses: next above 0, next below and above 1/2, next below 1. -/
theorem witness_SineSignFollowsPhase :
    (isFinite 0x0000000000000001#64 = true ∧ 0 < value 0x0000000000000001#64 ∧ value 0x0000000000000001#64 < 1 / 2) ∧
    (isFinite 0x3FDFFFFFFFFFFFFF#64 = true ∧ 0 < value 0x3FDFFFFFFFFFFFFF#64 ∧ value 0x3FDFFFFFFFFFFFFF#64 < 1 / 2) ∧
    (isFinite 0x3FE0000000000001#64 = true ∧ 1 / 2 < value 0x3FE0000000000001#64 ∧ value 0x3FE0000000000001#64 < 1) ∧
    (isFinite 0x3FEFFFFFFFFFFFFF#64 = true ∧ 1 / 2 < value 0x3FEFFFFFFFFFFFFF#64 ∧ value 0x3FEFFFFFFFFFFFFF#64 < 1) := by
  decide +kernel

/-- Finite arguments inside the accurate range, its end included, and one outside. -/
theorem witness_SineResponseAccuracy :
    (fmul 0x4000000000000000#64 0x401921FB54442D18#64 = .num 0x402921FB54442D18#64 ∧
      isFinite 0x402921FB54442D18#64 = true ∧
      |value 0x402921FB54442D18#64| ≤ value 0x402921FB54442D18#64) ∧
    ¬ |value 0x402921FB54442D19#64| ≤ value 0x402921FB54442D18#64 := by decide +kernel

theorem witness_StepKeepsConsistency : State.reset.Consistent where
  position := by decide
  marksTogether := by decide
  deltaNeedsSr := nofun
  faultExplained := fun _ h => nomatch h

theorem witness_RegistersHaveTheirWriters : (nextOf (exec .rdph State.reset) fun _ => ()) = some () ∧
    opcode .rdph ≠ 0x03#8 ∧ opcode .rdph ≠ 0x04#8 ∧ opcode .rdph ≠ 0x05#8 ∧ opcode .rdph ≠ 0x02#8 ∧
    opcode .rdph ≠ 0x01#8 := by decide

theorem witness_OneResponsePerReadingCommand :
    (nextOf (exec .rdph State.reset) fun t => t.flt) = some none ∧ 0x05 ≤ (opcode .rdph).toNat ∧
    (opcode (.offph 0)).toNat < 0x05 := by decide

theorem witness_StepMovesOrMarks : (nextOf (step State.reset) fun t => t.k) = some 0 ∧
    (nextOf (step (State.reset.withFetchWord 72 0)) fun t => t.k) = some 1 ∧
    (nextOf (step (checkedReset.withFetchWord 72 0x050000000000000000)) fun t => t.flt) =
      some (some ⟨.uninitDelta, 0⟩) := by decide

theorem witness_OrderedRunEndsWell : ∃ s : State,
    s.flt = none ∧ s.k ≤ s.run.length ∧ orderedRun s.marks s.rest = true :=
  ⟨State.start .hardware 0 .sine [.command 0x014020000000000000#72, .command 0x023FF0000000000000#72,
      .command 0x050000000000000000#72, .reset, .command 0x060000000000000000#72], by decide⟩

/-- In the checked view: a command that reads a marked register, where the two views differ in their guard. -/
theorem witness_HardwareAgreesWhereTheModelIsSound :
    (loaded (.command 0x090000000000000000#72)).view = .checked ∧
    (nextOf (step (loaded (.command 0x090000000000000000#72))) fun t => t.flt) = some none := by decide

/-- A block with a command in it whose response is valid. -/
def answering : Block where
  core := State.reset
  stage := .working (encode .rdph)
    { State.reset with out := [0#64], k := 1, run := [.command 0x060000000000000000#72] } (some 0#64) 0
  offer := none
  edges := 5

theorem witness_PinsInResetAndWhileWorking : answering.stage = .working (encode .rdph)
    { State.reset with out := [0#64], k := 1, run := [.command 0x060000000000000000#72] } (some 0#64) 0 := rfl

theorem answering_outcome : State.reset.extend (.command (encode .rdph)) = .next
    { State.reset with out := [0#64], k := 1, run := [.command 0x060000000000000000#72] } := rfl

theorem witness_ResponseIsHeldUntilTaken : answering.Consistent ∧ answering.core.flt = none ∧
    (answering.pins false).rspValid = true ∧ hostHolds answering.offer ⟨false, true, 0, true⟩ = true := by
  refine ⟨⟨witness_StepKeepsConsistency, fun _ => rfl, ?_⟩, rfl, rfl, rfl⟩
  rintro w after response left ⟨⟩
  exact ⟨answering_outcome, rfl, Nat.succ_pos _⟩

theorem witness_EdgeKeepsBlockConsistency : ∃ b', answering.edge ⟨false, false, 0, true⟩ = .next b' ∧
    b'.core.out = [0#64] := ⟨_, rfl, rfl⟩

theorem witness_ResetAbandonsTheCommand : ∃ b', answering.edge ⟨true, false, 0, true⟩ = .next b' ∧
    b'.core.out = [] := ⟨_, rfl, rfl⟩

/-- A host that offers one next word all the while. -/
theorem witness_AcceptedCommandFinishes : ∃ b : Block, b.core.flt = none ∧ b.stage = .ready ∧
      hostHolds b.offer ⟨false, true, encode .rdph, true⟩ = true ∧
      (∃ after, b.core.extend (.command (encode .rdph)) = .next after) ∧
      ∃ hs : List HostPins, hs.length = Config.latMax b.core.inst ∧ (∀ p ∈ hs, p.rst = false ∧ p.rspReady = true) ∧
        hs.Pairwise (fun p q => p.cmdValid = true → q.cmdValid = true ∧ q.cmdWord = p.cmdWord) := by
  refine ⟨{ answering with stage := .ready }, rfl, rfl, rfl, ⟨_, answering_outcome⟩,
    List.replicate (Config.latMax 0) ⟨false, true, 7, true⟩, List.length_replicate, ?_, ?_⟩
  · intro p hp
    rw [(List.mem_replicate.mp hp).2]
    exact ⟨rfl, rfl⟩
  · exact List.pairwise_replicate.mpr (.inr fun _ => ⟨rfl, rfl⟩)

theorem witness_AssembledWordsAreCanonical :
    assemble ["SETSR 8 ; rate".toList, "PROC".toList] =
      some [.command 0x014020000000000000#72, .command 0x050000000000000000#72] := by decide +kernel

/-- A literal with every part of R80 (a), and one with the least of them. -/
theorem witness_LiteralsGiveTheirValues :
    (DecimalText.mk (some true) [1, 2] [5] (some ⟨false, some true, [3]⟩)).wellFormed = true ∧
    (DecimalText.mk (some true) [1, 2] [5] (some ⟨false, some true, [3]⟩)).text = "-12.5e-3".toList ∧
    (DecimalText.mk none [0] [] none).wellFormed = true ∧ (DecimalText.mk none [0] [] none).text = "0".toList ∧
    125 ≠ 0 := by decide

/-- R80: every part of a decimal literal is read: this is -0.0125. -/
theorem test_decimal_exponent : operandLiteral "-12.5e-3".toList = some 0xBF8999999999999A#64 := by decide +kernel

/-- A host that keeps the range: SETSR 8, SETF 8 (the end of the range), PROC, SETPH 1, a reset. -/
def rangedRun : List RunItem :=
  [.command 0x014020000000000000#72, .command 0x024020000000000000#72, .command 0x050000000000000000#72,
    .command 0x033FF0000000000000#72, .reset]

theorem rangedRun_keepsRange : hostKeepsRange none rangedRun := by
  refine ⟨fun r h => ?_, ?_, trivial⟩
  · cases h
    decide +kernel
  · decide +kernel

theorem witness_StepKeepsPhaseInRange : (State.start .hardware 0 .sine rangedRun).InRange :=
  ⟨by decide +kernel, nofun, rangedRun_keepsRange, fun _ => by decide⟩

theorem witness_StepKeepsHostOrder : ∃ s : State, s.flt = none ∧ orderedRun s.marks s.rest = true ∧ s.rest ≠ [] :=
  ⟨State.start .checked 0 .ramp [.command 0x014020000000000000#72, .command 0x080000000000000000#72], by decide⟩

/-- While `answering` works, the host offers SETPH and then changes the word. -/
theorem witness_HandshakeBreakHasNoMove :
    (∃ b', answering.edge ⟨false, true, 7, false⟩ = .next b' ∧ b'.core.flt = none ∧ b'.offer = some 7 ∧
      b'.edge ⟨false, true, 8, true⟩ = .refused .hostBreaksHandshake) ∧
    (answering.pins false).cmdReady = false ∧
    answering.edge ⟨true, true, 7, true⟩ = .refused .hostBreaksHandshake ∧
    hostHolds answering.offer ⟨true, false, 7, true⟩ = true ∧
    (∃ b', answering.edge ⟨false, false, 7, true⟩ = .next b' ∧ b'.offer = none) :=
  ⟨⟨_, rfl, rfl, rfl, rfl⟩, rfl, rfl, rfl, ⟨_, rfl, rfl⟩⟩

/-- Two instances: the second may move, and then the first. -/
theorem witness_InstancesAreIndependent :
    (∃ a b, stepInstance 0 [State.reset, { State.reset with inst := 1 }] = .next a ∧
      stepInstance 1 [State.reset, { State.reset with inst := 1 }] = .next b) ∧
    (∃ a b, edgeInstance 0 ⟨false, false, 0, true⟩ [answering, Block.start .hardware 1 .sine] = .next a ∧
      edgeInstance 1 ⟨true, false, 0, true⟩ [answering, Block.start .hardware 1 .sine] = .next b) :=
  ⟨⟨_, _, rfl, rfl⟩, ⟨_, _, rfl, rfl⟩⟩

end Sys2Proof.Tests
end

section
/-! The classes of a pattern and its value, in terms of its sign and its 63-bit magnitude pattern. -/

namespace Sys2Proof.Machine

/-! ### Classes of a pattern (R10) -/

theorem toNat_mod_eq_fields (v : Word) : v.toNat % 2 ^ 63 = expField v * 2 ^ 52 + fracField v := by
  unfold expField fracField; omega

theorem expField_lt (v : Word) : expField v < 2 ^ 11 := Nat.mod_lt _ (by norm_num)

theorem fracField_lt (v : Word) : fracField v < 2 ^ 52 := Nat.mod_lt _ (by norm_num)

theorem isFinite_iff (v : Word) : isFinite v = true ↔ v.toNat % 2 ^ 63 < 0x7FF0000000000000 := by
  have := expField_lt v
  have := fracField_lt v
  rw [toNat_mod_eq_fields, isFinite, bne_iff_ne]
  omega

theorem isInf_iff (v : Word) : isInf v = true ↔ v.toNat % 2 ^ 63 = 0x7FF0000000000000 := by
  have := fracField_lt v
  rw [toNat_mod_eq_fields, isInf, Bool.and_eq_true, beq_iff_eq, beq_iff_eq]
  omega

theorem isNaN_iff (v : Word) : isNaN v = true ↔ 0x7FF0000000000000 < v.toNat % 2 ^ 63 := by
  have := expField_lt v
  have := fracField_lt v
  rw [toNat_mod_eq_fields, isNaN, Bool.and_eq_true, beq_iff_eq, bne_iff_ne]
  omega

theorem isZero_iff (v : Word) : isZero v = true ↔ v.toNat % 2 ^ 63 = 0 := by
  rw [toNat_mod_eq_fields, isZero, Bool.and_eq_true, beq_iff_eq, beq_iff_eq]
  omega

theorem isNaN_of_isFinite {v : Word} (h : isFinite v = true) : isNaN v = false := by
  rw [isFinite_iff] at h
  rw [← Bool.not_eq_true, isNaN_iff]
  omega

theorem isInf_of_isFinite {v : Word} (h : isFinite v = true) : isInf v = false := by
  rw [isFinite_iff] at h
  rw [← Bool.not_eq_true, isInf_iff]
  omega

theorem isFinite_of_isZero {v : Word} (h : isZero v = true) : isFinite v = true := by
  rw [isZero_iff] at h
  rw [isFinite_iff]
  omega

@[simp] theorem isNaN_infOf (neg : Bool) : isNaN (infOf neg) = false := by cases neg <;> decide
@[simp] theorem isInf_infOf (neg : Bool) : isInf (infOf neg) = true := by cases neg <;> decide
@[simp] theorem isZero_infOf (neg : Bool) : isZero (infOf neg) = false := by cases neg <;> decide
@[simp] theorem signBit_infOf (neg : Bool) : signBit (infOf neg) = neg := by cases neg <;> decide

/-- A pattern is its sign above its exponent and fraction. -/
theorem withSign_signBit (v : Word) : withSign (signBit v) (v.toNat % 2 ^ 63) = v := by
  have hv := v.isLt
  apply BitVec.eq_of_toNat_eq
  rw [withSign_toNat _ _ (Nat.mod_lt _ (by norm_num)), signBit_eq]
  simp only [decide_eq_true_eq]
  split <;> omega

/-! ### Values -/

theorem patternMagnitude_zero : patternMagnitude 0 = 0 := by simp [patternMagnitude]

theorem magnitude_eq_zero_iff (v : Word) : magnitude v = 0 ↔ isZero v = true := by
  rw [magnitude_eq, isZero_iff, ← patternMagnitude_strictMono.injective.eq_iff (a := v.toNat % 2 ^ 63),
    patternMagnitude_zero]

theorem magnitude_lt_of_isFinite {v : Word} (h : isFinite v = true) :
    magnitude v < patternMagnitude 0x7FF0000000000000 := by
  rw [magnitude_eq]
  exact patternMagnitude_strictMono ((isFinite_iff v).mp h)

/-- The factor a sign stands for. -/
def signFactor (neg : Bool) : ℚ := if neg then -1 else 1

theorem signFactor_xor (x y : Bool) : signFactor (x ^^ y) = signFactor x * signFactor y := by
  cases x <;> cases y <;> simp [signFactor]

theorem signFactor_mul_self (x : Bool) : signFactor x * signFactor x = 1 := by cases x <;> simp [signFactor]

theorem abs_signFactor_mul (neg : Bool) (x : ℚ) : |signFactor neg * x| = |x| := by cases neg <;> simp [signFactor]

/-- A sign times a positive number is negative exactly when the sign is. -/
theorem decide_signFactor_mul_neg (neg : Bool) {x : ℚ} (pos : 0 < x) : decide (signFactor neg * x < 0) = neg := by
  cases neg
  · simpa [signFactor] using pos.le
  · simpa [signFactor] using pos

theorem value_eq (v : Word) : value v = signFactor (signBit v) * (magnitude v / unitsPerOne) := by
  unfold value scaled signFactor
  split <;> push_cast <;> ring

theorem value_lt_iff (a b : Word) : value a < value b ↔ scaled a < scaled b := by
  rw [value, value, div_lt_div_iff_of_pos_right unitsPerOne_pos, Int.cast_lt]

theorem value_add (a b : Word) : value a + value b = ((scaled a + scaled b : Int) : ℚ) / unitsPerOne := by
  rw [value, value, ← add_div, Int.cast_add]

end Sys2Proof.Machine
end

section
/-! The rounding function picks the magnitude pattern nearest to the exact magnitude, the even one at a tie, and the
infinity from the overflow bound on. -/

namespace Sys2Proof.Machine

/-- `p` is the pattern whose magnitude is nearest to `r` units, and even where another is as near. The exponent is
unbounded here: patterns from the infinity's on count as the magnitudes they would continue with. -/
structure NearestPattern (p : Nat) (r : ℚ) : Prop where
  nearest : ∀ q, |(patternMagnitude p : ℚ) - r| ≤ |(patternMagnitude q : ℚ) - r|
  tie : ∀ q, q ≠ p → |(patternMagnitude q : ℚ) - r| = |(patternMagnitude p : ℚ) - r| → p % 2 = 0

theorem patternMagnitude_cast_le {p q : Nat} (h : p ≤ q) : (patternMagnitude p : ℚ) ≤ patternMagnitude q := by
  exact_mod_cast patternMagnitude_strictMono.monotone h

theorem patternMagnitude_cast_lt {p q : Nat} (h : p < q) : (patternMagnitude p : ℚ) < patternMagnitude q := by
  exact_mod_cast patternMagnitude_strictMono h

/-! ### Between two neighbouring patterns -/

/-- The lower of two neighbours is the nearest pattern up to halfway, and halfway if it is even. -/
theorem nearestPattern_lower {p : Nat} {r : ℚ} (lo : patternMagnitude p ≤ r)
    (half : 2 * r ≤ patternMagnitude p + patternMagnitude (p + 1))
    (even : 2 * r = patternMagnitude p + patternMagnitude (p + 1) → p % 2 = 0) : NearestPattern p r where
  nearest q := by
    rw [abs_of_nonpos (sub_nonpos.mpr lo)]
    rcases Nat.lt_or_ge p q with h | h
    · have := patternMagnitude_cast_le (Nat.succ_le_of_lt h)
      exact le_trans (by linarith) (le_abs_self _)
    · have := patternMagnitude_cast_le h
      exact le_trans (by linarith) (neg_le_abs _)
  tie q ne eq := by
    rw [abs_of_nonpos (sub_nonpos.mpr lo)] at eq
    rcases Nat.lt_or_gt_of_ne ne with h | h
    · have := patternMagnitude_cast_lt h
      linarith [neg_le_abs ((patternMagnitude q : ℚ) - r)]
    · have := patternMagnitude_cast_le (Nat.succ_le_of_lt h)
      exact even (by linarith [le_abs_self ((patternMagnitude q : ℚ) - r)])

/-- The upper of two neighbours is the nearest pattern from halfway on, and halfway if it is even. -/
theorem nearestPattern_upper {p : Nat} {r : ℚ} (hi : r ≤ patternMagnitude (p + 1))
    (half : patternMagnitude p + patternMagnitude (p + 1) ≤ 2 * r)
    (even : 2 * r = patternMagnitude p + patternMagnitude (p + 1) → (p + 1) % 2 = 0) : NearestPattern (p + 1) r where
  nearest q := by
    rw [abs_of_nonneg (sub_nonneg.mpr hi)]
    rcases Nat.lt_or_ge p q with h | h
    · have := patternMagnitude_cast_le (Nat.succ_le_of_lt h)
      exact le_trans (by linarith) (le_abs_self _)
    · have := patternMagnitude_cast_le h
      exact le_trans (by linarith) (neg_le_abs _)
  tie q ne eq := by
    rw [abs_of_nonneg (sub_nonneg.mpr hi)] at eq
    rcases Nat.lt_or_gt_of_ne ne with h | h
    · have := patternMagnitude_cast_le (Nat.le_of_lt_succ h)
      exact even (by linarith [neg_le_abs ((patternMagnitude q : ℚ) - r)])
    · have := patternMagnitude_cast_lt h
      linarith [le_abs_self ((patternMagnitude q : ℚ) - r)]

/-! ### The overflow bound -/

theorem unitsPerOne_cast : (unitsPerOne : ℚ) = 2 ^ 1074 := by
  unfold unitsPerOne
  simp only [Nat.cast_pow, Nat.cast_ofNat]

/-- The overflow bound is halfway from the greatest finite magnitude to the one the infinity's pattern continues
with. -/
theorem overflowBound_halfway : 2 * (overflowBound * unitsPerOne) =
    (patternMagnitude 0x7FEFFFFFFFFFFFFF : ℚ) + patternMagnitude 0x7FF0000000000000 := by
  obtain ⟨n, hn⟩ : ∃ n, n = 970 + 1074 := ⟨_, rfl⟩
  have top : patternMagnitude 0x7FF0000000000000 = 2 ^ 52 * 2 ^ (n + 2) := by
    rw [← patternMagnitude_normal _ (n + 2) le_rfl (by norm_num), hn]
    norm_num
  have max : patternMagnitude 0x7FEFFFFFFFFFFFFF = (2 ^ 53 - 1) * 2 ^ (n + 1) := by
    rw [← patternMagnitude_normal _ (n + 1) (by norm_num) (by norm_num), hn]
    norm_num
  have units : (2 : ℚ) ^ 970 * (unitsPerOne : ℚ) = 2 ^ n := by
    rw [hn, pow_add, unitsPerOne_cast]
  rw [overflowBound, mul_assoc, units, top, max]
  push_cast
  ring

/-- Below the overflow bound the nearest pattern is finite. -/
theorem NearestPattern.lt_inf {p : Nat} {r : ℚ} (h : NearestPattern p r) (below : r < overflowBound * unitsPerOne) :
    p < 0x7FF0000000000000 := by
  by_contra past
  have le := patternMagnitude_cast_le (Nat.le_of_not_lt past)
  have max_lt := patternMagnitude_cast_lt (show 0x7FEFFFFFFFFFFFFF < 0x7FF0000000000000 by norm_num)
  have near := (le_abs_self _).trans (h.nearest 0x7FEFFFFFFFFFFFFF)
  have half := overflowBound_halfway
  rcases abs_cases ((patternMagnitude 0x7FEFFFFFFFFFFFFF : ℚ) - r) with ⟨eq, _⟩ | ⟨eq, _⟩ <;> linarith

/-- From the overflow bound on the nearest pattern is not finite: at the bound itself the greatest finite pattern
is odd. -/
theorem NearestPattern.inf_le {p : Nat} {r : ℚ} (h : NearestPattern p r) (above : overflowBound * unitsPerOne ≤ r) :
    0x7FF0000000000000 ≤ p := by
  by_contra under
  have le := patternMagnitude_cast_le (show p ≤ 0x7FEFFFFFFFFFFFFF by omega)
  have max_lt := patternMagnitude_cast_lt (show 0x7FEFFFFFFFFFFFFF < 0x7FF0000000000000 by norm_num)
  have near := (neg_le_abs _).trans (h.nearest 0x7FF0000000000000)
  have half := overflowBound_halfway
  have isMax : p = 0x7FEFFFFFFFFFFFFF := by
    by_contra ne
    have := patternMagnitude_cast_lt (show p < 0x7FEFFFFFFFFFFFFF by omega)
    rcases abs_cases ((patternMagnitude 0x7FF0000000000000 : ℚ) - r) with ⟨eq, _⟩ | ⟨eq, _⟩ <;> linarith
  subst isMax
  have even := h.tie 0x7FF0000000000000 (by norm_num) <| by
    refine le_antisymm ?_ (h.nearest _)
    rw [abs_le]
    constructor <;> linarith [neg_le_abs ((patternMagnitude 0x7FEFFFFFFFFFFFFF : ℚ) - r)]
  norm_num at even

/-! ### `roundMag` picks the nearest pattern (R21) -/

/-- The two integers `nearestEven` chooses from, and when it takes which. -/
theorem nearestEven_cases (num den : Nat) :
    (nearestEven num den = num / den ∧ 2 * (num % den) ≤ den ∧ (2 * (num % den) = den → num / den % 2 = 0)) ∨
    (nearestEven num den = num / den + 1 ∧ den ≤ 2 * (num % den) ∧ (2 * (num % den) = den → num / den % 2 = 1)) := by
  unfold nearestEven
  split <;> omega

/-- After the shift the quotient has at most 53 bits, and exactly 53 where there was a shift. -/
theorem roundShift_significand (q : Nat) :
    q / 2 ^ roundShift q < 2 ^ 53 ∧ (roundShift q = 0 ∨ 2 ^ 52 ≤ q / 2 ^ roundShift q) := by
  unfold roundShift
  split
  · simpa
  · next big =>
    have ne : q ≠ 0 := by omega
    have log : 52 ≤ Nat.log2 q := (Nat.le_log2 ne).mpr (by omega)
    constructor
    · rw [Nat.div_lt_iff_lt_mul (by positivity), ← pow_add, show 53 + (q.log2 - 52) = q.log2 + 1 by omega]
      exact Nat.lt_log2_self
    · right
      rw [Nat.le_div_iff_mul_le (by positivity), ← pow_add, Nat.add_sub_cancel' log]
      exact Nat.log2_self_le ne

/-- The magnitude of an assembled pattern, its significand carried into the next binade included. -/
theorem patternMagnitude_assembled (m e : Nat) (lo : e = 0 ∨ 2 ^ 52 ≤ m) (hi : m ≤ 2 ^ 53) :
    patternMagnitude (e * 2 ^ 52 + m) = m * 2 ^ e := by
  rcases Nat.lt_or_ge m (2 ^ 52) with small | normal
  · obtain rfl : e = 0 := by omega
    rw [patternMagnitude, if_pos (by omega)]
    omega
  · rcases hi.lt_or_eq with lt | rfl
    · exact patternMagnitude_normal m e normal lt
    · rw [show e * 2 ^ 52 + 2 ^ 53 = (e + 1) * 2 ^ 52 + 2 ^ 52 by ring,
        patternMagnitude_normal _ _ le_rfl (by norm_num)]
      ring

/-- The pattern `roundMag` forms before it caps it at the infinity's. -/
def uncappedRound (num den : Nat) : Nat :=
  roundShift (num / den) * 2 ^ 52 + nearestEven num (den * 2 ^ roundShift (num / den))

theorem roundMag_eq_min (num den : Nat) : roundMag num den = min (uncappedRound num den) 0x7FF0000000000000 := rfl

theorem uncappedRound_nearest (num den : Nat) (pos : 0 < den) :
    NearestPattern (uncappedRound num den) ((num : ℚ) / den) := by
  obtain ⟨hi, lo⟩ := roundShift_significand (num / den)
  unfold uncappedRound
  generalize roundShift (num / den) = e at hi lo ⊢
  rw [Nat.div_div_eq_div_mul] at hi lo
  have posQ : (0 : ℚ) < den := by exact_mod_cast pos
  have lt : num % (den * 2 ^ e) < den * 2 ^ e := Nat.mod_lt _ (by positivity)
  have exact : (num : ℚ) / den = (num / (den * 2 ^ e) : ℕ) * 2 ^ e + (num % (den * 2 ^ e) : ℕ) / den := by
    have split : (num : ℚ) = (den * 2 ^ e) * (num / (den * 2 ^ e) : ℕ) + (num % (den * 2 ^ e) : ℕ) := by
      exact_mod_cast (Nat.div_add_mod num (den * 2 ^ e)).symm
    rw [eq_comm, eq_div_iff posQ.ne', add_mul, div_mul_cancel₀ _ posQ.ne']
    linarith
  have choice := nearestEven_cases num (den * 2 ^ e)
  generalize num / (den * 2 ^ e) = k at *
  generalize num % (den * 2 ^ e) = rem at *
  have below : (patternMagnitude (e * 2 ^ 52 + k) : ℚ) = k * 2 ^ e := by
    rw [patternMagnitude_assembled k e lo hi.le, Nat.cast_mul, Nat.cast_pow, Nat.cast_ofNat]
  have above : (patternMagnitude (e * 2 ^ 52 + k + 1) : ℚ) = (k + 1) * 2 ^ e := by
    rw [add_assoc, patternMagnitude_assembled (k + 1) e (by omega) hi, Nat.cast_mul, Nat.cast_pow, Nat.cast_ofNat,
      Nat.cast_succ]
  have two_mul_le : 2 * (rem : ℚ) / den ≤ 2 ^ e ↔ 2 * rem ≤ den * 2 ^ e := by
    rw [div_le_iff₀' posQ]; exact_mod_cast Iff.rfl
  have le_two_mul : 2 ^ e ≤ 2 * (rem : ℚ) / den ↔ den * 2 ^ e ≤ 2 * rem := by
    rw [le_div_iff₀' posQ]; exact_mod_cast Iff.rfl
  have rem_nonneg : (0 : ℚ) ≤ rem / den := by positivity
  have rem_le : (rem : ℚ) / den ≤ 2 ^ e := by rw [div_le_iff₀' posQ]; exact_mod_cast lt.le
  rw [mul_div_assoc] at two_mul_le le_two_mul
  rcases choice with ⟨eq, half, even⟩ | ⟨eq, half, odd⟩
  · have := two_mul_le.mpr half
    rw [eq, exact]
    refine nearestPattern_lower (by rw [below]; linarith) (by rw [below, above]; linarith) fun tie => ?_
    rw [below, above] at tie
    have := even (le_antisymm half (le_two_mul.mp (by linarith)))
    omega
  · have := le_two_mul.mpr half
    rw [eq, exact, ← add_assoc]
    refine nearestPattern_upper (by rw [above]; linarith) (by rw [below, above]; linarith) fun tie => ?_
    rw [below, above] at tie
    have := odd (le_antisymm (two_mul_le.mp (by linarith)) half)
    omega

end Sys2Proof.Machine
end

section
/-! A signed pattern with the rounded magnitude is the correctly rounded value, in the sense of `RoundsTo`. -/

namespace Sys2Proof.Machine

theorem roundMag_le (num den : Nat) : roundMag num den ≤ 0x7FF0000000000000 := min_le_right _ _

theorem roundMag_lt (num den : Nat) : roundMag num den < 2 ^ 63 := (roundMag_le num den).trans_lt (by norm_num)

theorem isFinite_withSign (neg : Bool) {p : Nat} (h : p < 0x7FF0000000000000) : isFinite (withSign neg p) = true := by
  rw [isFinite_iff, withSign_toNat neg p (by omega)]
  cases neg <;> simp <;> omega

theorem toNat_withSign_mod_two (neg : Bool) {p : Nat} (h : p < 2 ^ 63) : (withSign neg p).toNat % 2 = p % 2 := by
  rw [withSign_toNat neg p h]
  cases neg <;> simp
  omega

/-- The distance between a value and a signed number of units, seen from the number's side of zero. -/
theorem abs_value_sub (w : Word) (neg : Bool) (r : ℚ) : |value w - signFactor neg * (r / unitsPerOne)| =
    |signFactor neg * signFactor (signBit w) * magnitude w - r| / unitsPerOne := by
  conv_rhs => rw [← abs_of_pos unitsPerOne_pos, ← abs_div, ← abs_signFactor_mul neg]
  rw [value_eq]
  congr 1
  linear_combination (-signFactor (signBit w) * (magnitude w / unitsPerOne)) * signFactor_mul_self neg

/-- On the number's side of zero the distance is that of the magnitudes. -/
theorem abs_value_withSign_sub (neg : Bool) {p : Nat} (h : p < 2 ^ 63) (r : ℚ) :
    |value (withSign neg p) - signFactor neg * (r / unitsPerOne)| = |(patternMagnitude p : ℚ) - r| / unitsPerOne := by
  rw [abs_value_sub, signBit_withSign neg p h, magnitude_withSign neg p h, signFactor_mul_self, one_mul]

/-- On the other side of zero a value is at least as far as zero is. -/
theorem le_abs_value_sub_of_signBit_ne {w : Word} {neg : Bool} (ne : signBit w ≠ neg) (r : ℚ) :
    r / unitsPerOne ≤ |value w - signFactor neg * (r / unitsPerOne)| := by
  have flip : signFactor neg * signFactor (signBit w) = -1 := by
    rw [Bool.eq_not.mpr ne]
    cases neg <;> simp [signFactor]
  have nonneg : (0 : ℚ) ≤ magnitude w := Nat.cast_nonneg _
  rw [abs_value_sub, flip]
  have := unitsPerOne_pos
  gcongr
  linarith [neg_le_abs ((-1 : ℚ) * magnitude w - r)]

/-- A finite pattern nearest to `r` units in magnitude is, under any sign, nearest to that signed number: a value on the
other side of zero is no nearer than zero is. -/
theorem NearestPattern.isNearestEven {p : Nat} {r : ℚ} (h : NearestPattern p r) (hr : 0 ≤ r) (neg : Bool)
    (hp : p < 0x7FF0000000000000) : IsNearestEven (withSign neg p) (signFactor neg * (r / unitsPerOne)) := by
  have small : p < 2 ^ 63 := by omega
  have zero : |(patternMagnitude 0 : ℚ) - r| = r := by
    rw [patternMagnitude_zero, Nat.cast_zero, zero_sub, abs_neg, abs_of_nonneg hr]
  have units := unitsPerOne_pos
  refine ⟨isFinite_withSign neg hp, fun w _ => ?_, fun w _ ne eq => ?_⟩
  · by_cases same : signBit w = neg
    · rw [← withSign_signBit w, same, abs_value_withSign_sub neg small,
        abs_value_withSign_sub neg (Nat.mod_lt _ (by norm_num))]
      exact div_le_div_of_nonneg_right (h.nearest _) units.le
    · refine le_trans ?_ (le_abs_value_sub_of_signBit_ne same r)
      rw [abs_value_withSign_sub neg small]
      exact div_le_div_of_nonneg_right ((h.nearest 0).trans_eq zero) units.le
  · rw [toNat_withSign_mod_two neg small]
    by_cases same : signBit w = neg
    · have split := withSign_signBit w
      rw [same] at split
      rw [← split, abs_value_withSign_sub neg small, abs_value_withSign_sub neg (Nat.mod_lt _ (by norm_num)),
        div_left_inj' units.ne'] at eq
      refine h.tie _ (fun samePattern => ne ?_) eq
      rw [← split, samePattern]
    · have far := le_abs_value_sub_of_signBit_ne same r
      rw [eq, abs_value_withSign_sub neg small, div_le_div_iff_of_pos_right units] at far
      rcases Nat.eq_zero_or_pos p with rfl | pos
      · rfl
      · exact h.tie 0 pos.ne (le_antisymm (zero.trans_le far) (h.nearest 0))

/-- R14, R16, R17, R21: `roundMag` under a sign gives the correctly rounded signed quotient. -/
theorem roundsTo_roundMag (neg : Bool) (num den : Nat) (pos : 0 < den) :
    RoundsTo (withSign neg (roundMag num den)) (signFactor neg * ((num / den : ℚ) / unitsPerOne)) := by
  have near := uncappedRound_nearest num den pos
  have nonneg : (0 : ℚ) ≤ num / den := by positivity
  have abs_eq : |signFactor neg * ((num / den : ℚ) / unitsPerOne)| = (num / den : ℚ) / unitsPerOne := by
    rw [abs_signFactor_mul, abs_of_nonneg (div_nonneg nonneg unitsPerOne_pos.le)]
  rw [RoundsTo, abs_eq, div_lt_iff₀ unitsPerOne_pos, le_div_iff₀ unitsPerOne_pos, roundMag_eq_min]
  constructor
  · intro below
    have finite := near.lt_inf below
    rw [min_eq_left finite.le]
    exact near.isNearestEven nonneg neg finite
  · intro above
    have bound : 0 < overflowBound * unitsPerOne := mul_pos (by norm_num [overflowBound]) unitsPerOne_pos
    rw [min_eq_right (near.inf_le above),
      decide_signFactor_mul_neg neg (div_pos (bound.trans_le above) unitsPerOne_pos), infOf]

end Sys2Proof.Machine
end

section
/-! The binary64 operations of 00_scope.md section 5: each forms its exact result as a signed quotient of whole numbers
of units, so that one rounding theorem (`roundsTo_roundMag`) serves all three; then the NaN draws and the comparison. -/

namespace Sys2Proof.Machine

/-! ### Sums (R14) -/

theorem fadd_of_finite {a b : Word} (ha : isFinite a = true) (hb : isFinite b = true) : fadd a b =
    if scaled a + scaled b = 0 then .num (zeroOf (signBit a && signBit b))
    else .num (withSign (decide (scaled a + scaled b < 0)) (roundMag (scaled a + scaled b).natAbs 1)) := by
  simp [fadd, isNaN_of_isFinite, isInf_of_isFinite, ha, hb]

theorem fadd_nan {a b : Word} (h : isNaN a = true ∨ isNaN b = true) : fadd a b = .nan := by
  rw [fadd, if_pos (by simpa using h)]

theorem fadd_rounds {a b : Word} (ha : isFinite a = true) (hb : isFinite b = true) (nz : value a + value b ≠ 0) :
    ∃ v, fadd a b = .num v ∧ RoundsTo v (value a + value b) := by
  rw [value_add] at nz ⊢
  rw [fadd_of_finite ha hb]
  generalize scaled a + scaled b = n at nz ⊢
  have ne : n ≠ 0 := by rintro rfl; simp at nz
  have signed : (n : ℚ) / unitsPerOne = signFactor (decide (n < 0)) * ((n.natAbs / (1 : ℕ) : ℚ) / unitsPerOne) := by
    have cast : (n : ℚ) = signFactor (decide (n < 0)) * (n.natAbs : ℚ) := by
      rw [Nat.cast_natAbs, Int.cast_abs]
      by_cases h : n < 0
      · simp [signFactor, h, abs_of_neg]
      · simp [signFactor, h, abs_of_nonneg, not_lt.mp h]
    rw [Nat.cast_one, div_one, ← mul_div_assoc, ← cast]
  rw [if_neg ne, signed]
  exact ⟨_, rfl, roundsTo_roundMag _ _ 1 one_pos⟩

theorem eq_negZero_iff (v : Word) : v = 0x8000000000000000#64 ↔ signBit v = true ∧ magnitude v = 0 := by
  constructor
  · rintro rfl
    decide
  · rintro ⟨sign, zero⟩
    rw [magnitude_eq_zero_iff, isZero_iff] at zero
    rw [← withSign_signBit v, sign, zero]
    rfl

/-- Two values with a zero sum are of opposite signs, unless both are the zero of their common sign. -/
theorem signs_of_sum_zero {a b : Word} (h : scaled a + scaled b = 0) :
    (signBit a && signBit b) = decide (a = 0x8000000000000000#64 ∧ b = 0x8000000000000000#64) := by
  rw [Bool.eq_iff_iff, Bool.and_eq_true, decide_eq_true_iff, eq_negZero_iff, eq_negZero_iff]
  constructor
  · rintro ⟨sa, sb⟩
    rw [scaled, if_pos sa, scaled, if_pos sb] at h
    exact ⟨⟨sa, by omega⟩, ⟨sb, by omega⟩⟩
  · rintro ⟨⟨sa, _⟩, ⟨sb, _⟩⟩
    exact ⟨sa, sb⟩

theorem fadd_zero_sum {a b : Word} (ha : isFinite a = true) (hb : isFinite b = true) (h : value a + value b = 0) :
    fadd a b = .num (if a = 0x8000000000000000#64 ∧ b = 0x8000000000000000#64 then 0x8000000000000000#64
      else 0x0000000000000000#64) := by
  have sum : scaled a + scaled b = 0 := by
    rw [value_add, div_eq_zero_iff, or_iff_left unitsPerOne_pos.ne'] at h
    exact_mod_cast h
  rw [fadd_of_finite ha hb, if_pos sum, signs_of_sum_zero sum]
  by_cases both : a = 0x8000000000000000#64 ∧ b = 0x8000000000000000#64
  · rw [decide_eq_true both, if_pos both]
    rfl
  · rw [decide_eq_false both, if_neg both]
    rfl

/-- Settles O22: the exact sum is a whole number of units, which `roundMag` rounds. -/
theorem sumIsCorrectlyRounded : Obligations.SumIsCorrectlyRounded := by
  refine ⟨fun _ _ => fadd_rounds, fun _ _ => fadd_zero_sum, fun _ _ => fadd_nan, fun neg => ?_, fun neg a fin => ?_⟩
  · simp [fadd]
  · simp [fadd, isNaN_of_isFinite fin, isInf_of_isFinite fin]

/-! ### Products (R16) -/

theorem fmul_of_finite {a b : Word} (ha : isFinite a = true) (hb : isFinite b = true) : fmul a b =
    .num (withSign (signBit a ^^ signBit b) (roundMag (magnitude a * magnitude b) unitsPerOne)) := by
  simp [fmul, isNaN_of_isFinite, isInf_of_isFinite, ha, hb]

theorem fmul_nan {a b : Word} (h : isNaN a = true ∨ isNaN b = true) : fmul a b = .nan := by
  rw [fmul, if_pos (by simpa using h)]

theorem value_mul (a b : Word) : value a * value b = signFactor (signBit a ^^ signBit b) *
    (((magnitude a * magnitude b : ℕ) / unitsPerOne : ℚ) / unitsPerOne) := by
  rw [value_eq, value_eq, signFactor_xor]
  push_cast
  ring

theorem fmul_rounds {a b : Word} (ha : isFinite a = true) (hb : isFinite b = true) :
    ∃ v, fmul a b = .num v ∧ RoundsTo v (value a * value b) ∧ signBit v = (signBit a ^^ signBit b) := by
  have pos : 0 < unitsPerOne := by exact_mod_cast unitsPerOne_pos
  rw [fmul_of_finite ha hb, value_mul]
  exact ⟨_, rfl, roundsTo_roundMag _ _ _ pos, signBit_withSign _ _ (roundMag_lt _ _)⟩

/-- Settles O23: the exact product of two magnitudes is a quotient by the number of units in 1, which `roundMag`
rounds. -/
theorem productIsCorrectlyRounded : Obligations.ProductIsCorrectlyRounded := by
  refine ⟨fun _ _ => fmul_rounds, fun _ _ => fmul_nan, fun neg a zero => ?_, fun neg a notNaN nonzero => ?_⟩
  · simp [fmul, zero]
  · simp [fmul, notNaN, nonzero]

/-! ### Quotients (R17) -/

theorem fdiv_of_finite {a b : Word} (ha : isFinite a = true) (hb : isFinite b = true) (nz : isZero b = false) :
    fdiv a b = .num (withSign (signBit a ^^ signBit b) (roundMag (magnitude a * unitsPerOne) (magnitude b))) := by
  simp [fdiv, isNaN_of_isFinite, isInf_of_isFinite, ha, hb, nz]

theorem fdiv_nan {a b : Word} (h : isNaN a = true ∨ isNaN b = true) : fdiv a b = .nan := by
  rw [fdiv, if_pos (by simpa using h)]

theorem value_div (a b : Word) : value a / value b = signFactor (signBit a ^^ signBit b) *
    (((magnitude a * unitsPerOne : ℕ) / magnitude b : ℚ) / unitsPerOne) := by
  have units := unitsPerOne_pos.ne'
  have inv : (signFactor (signBit b))⁻¹ = signFactor (signBit b) := inv_eq_of_mul_eq_one_left (signFactor_mul_self _)
  rw [value_eq, value_eq, mul_div_mul_comm, div_div_div_cancel_right₀ units, signFactor_xor,
    div_eq_mul_inv _ (signFactor _), inv, Nat.cast_mul, mul_div_right_comm, mul_div_cancel_right₀ _ units]

theorem fdiv_rounds {a b : Word} (ha : isFinite a = true) (hb : isFinite b = true) (nz : isZero b = false) :
    ∃ v, fdiv a b = .num v ∧ RoundsTo v (value a / value b) ∧ signBit v = (signBit a ^^ signBit b) := by
  have pos : 0 < magnitude b := by
    rw [Nat.pos_iff_ne_zero, Ne, magnitude_eq_zero_iff, nz]
    exact Bool.false_ne_true
  rw [fdiv_of_finite ha hb nz, value_div]
  exact ⟨_, rfl, roundsTo_roundMag _ _ _ pos, signBit_withSign _ _ (roundMag_lt _ _)⟩

/-- Settles O24: the exact quotient of two magnitudes, in units, is what `roundMag` rounds. -/
theorem quotientIsCorrectlyRounded : Obligations.QuotientIsCorrectlyRounded := by
  refine ⟨fun _ _ => fdiv_rounds, fun _ _ => fdiv_nan, fun a b za zb => ?_, fun neg neg' => ?_,
    fun a b notNaN nz zb => ?_, fun neg a fin => ?_⟩
  · have fa := isFinite_of_isZero za
    have fb := isFinite_of_isZero zb
    simp [fdiv, za, zb, isNaN_of_isFinite, isInf_of_isFinite, fa, fb]
  · simp [fdiv]
  · have fb := isFinite_of_isZero zb
    simp [fdiv, notNaN, nz, zb, isNaN_of_isFinite, isInf_of_isFinite, fb]
  · simp [fdiv, isNaN_of_isFinite fin, isInf_of_isFinite fin]

/-! ### NaN draws (R18) -/

/-- A NaN pattern, taken as a raw draw, stands for itself. -/
theorem nanPattern_of_isNaN {v : Word} (h : isNaN v = true) : nanPattern v = v := by
  rw [isNaN, Bool.and_eq_true, beq_iff_eq, bne_iff_ne] at h
  obtain ⟨exp, nz⟩ := h
  have split := toNat_mod_eq_fields v
  rw [exp] at split
  rw [nanPattern, if_neg nz]
  conv_rhs => rw [← withSign_signBit v, split]
  norm_num

/-- Settles O25: every draw gives a NaN, and every NaN is the draw of its own bits. -/
theorem nanDrawCoversEveryNaN : Obligations.NaNDrawCoversEveryNaN := by
  intro v
  constructor
  · exact fun h => ⟨v, nanPattern_of_isNaN h⟩
  · rintro ⟨raw, rfl⟩
    exact isNaN_nanPattern raw

/-! ### Comparison (R19) -/

theorem fgt_of_not_isNaN {a b : Word} (ha : isNaN a = false) (hb : isNaN b = false) :
    fgt a b = decide (scaled b < scaled a) := by
  simp [fgt, ha, hb]

theorem scaled_negInf : scaled (infOf true) = -scaled (infOf false) := by
  rw [infOf, infOf, scaled_withSign _ _ (by norm_num), scaled_withSign _ _ (by norm_num), if_pos rfl,
    if_neg Bool.false_ne_true, neg_one_mul, one_mul]

/-- The infinities enclose every finite value. -/
theorem abs_scaled_lt_inf {a : Word} (h : isFinite a = true) : |scaled a| < scaled (infOf false) := by
  rw [abs_scaled, infOf, scaled_withSign _ _ (by norm_num), if_neg Bool.false_ne_true, one_mul]
  exact_mod_cast magnitude_lt_of_isFinite h

theorem scaled_inf_pos : 0 < scaled (infOf false) := (abs_nonneg _).trans_lt (abs_scaled_lt_inf (a := 0) (by decide))

theorem fgt_nan {a b : Word} (h : isNaN a = true ∨ isNaN b = true) : fgt a b = false := by
  rcases h with h | h <;> simp [fgt, h]

/-- Settles O26: the infinities' patterns continue the order of the finite values. -/
theorem comparisonIsOrdered : Obligations.ComparisonIsOrdered := by
  refine ⟨fun a b ha hb => ?_, fun _ _ => fgt_nan, fun a fin => ?_, fun a fin => ?_, fun neg neg' => ?_⟩
  · rw [fgt_of_not_isNaN (isNaN_of_isFinite ha) (isNaN_of_isFinite hb), decide_eq_true_iff, value_lt_iff]
  · have hi := (abs_lt.mp (abs_scaled_lt_inf fin)).2
    simp [fgt_of_not_isNaN, isNaN_of_isFinite fin, hi, hi.le]
  · have lo := (abs_lt.mp (abs_scaled_lt_inf fin)).1
    simp [fgt_of_not_isNaN, isNaN_of_isFinite fin, scaled_negInf, lo, lo.le]
  · have pos := scaled_inf_pos
    rw [fgt_of_not_isNaN (isNaN_infOf neg) (isNaN_infOf neg')]
    cases neg <;> cases neg' <;> simp [scaled_negInf, pos, pos.le]

end Sys2Proof.Machine
end

section
/-! Every command is one shape: a guard on a register and an effect (40_configuration.md to 43_readback.md). What an
effect changes and leaves unchanged is said once, for all ten commands. -/

namespace Sys2Proof.Machine

/-! ### The guard and the effect of a command -/

/-- The register whose written mark a command needs, with the reason the checked view raises (60_exceptions.md R137). -/
def guardOf : Instr → Option (Reg × Fault)
  | .setf _ | .rdsr => some (.sr, .uninitSr)
  | .rdf => some (.freq, .uninitFreq)
  | .proc | .rdd => some (.delta, .uninitDelta)
  | .nop | .setsr _ | .setph _ | .offph _ | .rdph => none

/-- What a command does to the state when its guard lets it run, `k` aside. -/
def effectOf : Instr → State → State
  | .nop, s => s
  | .setsr rate, s => (s.writeReg .sr rate).markWritten .sr
  | .setf freq, s => (s.writeReg .freq freq).withResult (fdiv freq s.sr) fun d s =>
      ((s.writeReg .delta d).markWritten .freq).markWritten .delta
  | .setph phase, s => s.writeReg .phase phase
  | .offph offset, s => s.withResult (fadd s.phase offset) fun p s => s.writeReg .phase p
  | .proc, s => s.withResult (fadd s.phase s.delta) fun sum s => s.withResult (wrap sum) fun p s =>
      (s.writeReg .phase p).withShaped p fun y s => s.emit y
  | .rdph, s => s.emit s.phase
  | .rdf, s => s.emit s.freq
  | .rdsr, s => s.emit s.sr
  | .rdd, s => s.emit s.delta

theorem exec_eq_command (i : Instr) (s : State) : exec i s = s.command (guardOf i) (effectOf i) := by
  cases i <;> rfl

theorem view_checked_of_mayRead {s : State} {r : Reg} (h : s.mayRead r = false) :
    s.view = .checked ∧ s.isWritten r = false := by
  cases v : s.view <;> simp_all

/-- A command that answers a next state had its effect, its guard's register readable, or raised its guard's reason. -/
theorem exec_next {i : Instr} {s t : State} (h : exec i s = .next t) : s.flt = none ∧
    ((t = (effectOf i s).advance ∧ ∀ r reason, guardOf i = some (r, reason) → s.mayRead r = true) ∨
      ∃ r reason, guardOf i = some (r, reason) ∧ s.mayRead r = false ∧ t = s.raise reason) := by
  rw [exec_eq_command] at h
  have sound := (command_next s t _ _ h).1
  refine ⟨sound, ?_⟩
  cases g : guardOf i with
  | none =>
    rw [g, command_unguarded s _ sound] at h
    exact .inl ⟨(Host.Outcome.next.inj h).symm, nofun⟩
  | some rr =>
    obtain ⟨r, reason⟩ := rr
    cases may : s.mayRead r with
    | true =>
      rw [g, command_readable s r reason _ sound may] at h
      exact .inl ⟨(Host.Outcome.next.inj h).symm, by rintro _ _ ⟨⟩; exact may⟩
    | false =>
      rw [g, command_unreadable s r reason _ sound may] at h
      exact .inr ⟨r, reason, rfl, may, (Host.Outcome.next.inj h).symm⟩

/-! ### The effects that compute, up to the values they draw -/

theorem effectOf_setf (freq : Word) (s : State) : ∃ d n, effectOf (.setf freq) s =
    { s with freq := freq, delta := d, wrFreq := true, wrDelta := true, draws := n } :=
  withResult_draws (s.writeReg .freq freq) (fdiv freq s.sr) fun d s =>
    ((s.writeReg .delta d).markWritten .freq).markWritten .delta

theorem effectOf_offph (offset : Word) (s : State) : ∃ p n, effectOf (.offph offset) s =
    { s with phase := p, draws := n } :=
  withResult_draws s (fadd s.phase offset) fun p s => s.writeReg .phase p

theorem effectOf_proc (s : State) : ∃ p y n, effectOf .proc s =
    { s with phase := p, out := s.out ++ [y], draws := n } := by
  obtain ⟨sum, n₁, e₁⟩ := withResult_draws s (fadd s.phase s.delta) fun sum s => s.withResult (wrap sum) fun p s =>
    (s.writeReg .phase p).withShaped p fun y s => s.emit y
  obtain ⟨p, n₂, e₂⟩ := withResult_draws { s with draws := n₁ } (wrap sum) fun p s =>
    (s.writeReg .phase p).withShaped p fun y s => s.emit y
  obtain ⟨y, n₃, e₃⟩ := withShaped_cases (State.writeReg { s with draws := n₂ } .phase p) p fun y s => s.emit y
  exact ⟨p, y, n₃, e₁.trans (e₂.trans e₃)⟩

/-! ### The frame of an effect (10_state.md R31, R39, 42_process.md R117) -/

/-- What the effect of `i` leaves as it was, what it does to the marks, and how many responses it adds
(30_encoding.md R78). -/
structure EffectFrame (i : Instr) (s t : State) : Prop where
  phase : opcode i ≠ 0x03#8 → opcode i ≠ 0x04#8 → opcode i ≠ 0x05#8 → t.phase = s.phase
  freq : opcode i ≠ 0x02#8 → t.freq = s.freq
  delta : opcode i ≠ 0x02#8 → t.delta = s.delta
  sr : opcode i ≠ 0x01#8 → t.sr = s.sr
  marks : t.marks = s.marks.after (opcode i).toNat
  out : ∃ ys, t.out = s.out ++ ys ∧ ys.length = if (opcode i).toNat < 0x05 then 0 else 1
  flt : t.flt = s.flt
  k : t.k = s.k
  run : t.run = s.run
  shape : t.shape = s.shape
  view : t.view = s.view
  inst : t.inst = s.inst

theorem effectOf_frame (i : Instr) (s : State) : EffectFrame i s (effectOf i s) := by
  cases i with
  | setf freq =>
    obtain ⟨d, n, e⟩ := effectOf_setf freq s
    rw [e]
    constructor <;> simp [opcode, State.marks, Marks.after]
  | offph offset =>
    obtain ⟨p, n, e⟩ := effectOf_offph offset s
    rw [e]
    constructor <;> simp [opcode, State.marks, Marks.after]
  | proc =>
    obtain ⟨p, y, n, e⟩ := effectOf_proc s
    rw [e]
    constructor <;> simp [opcode, State.marks, Marks.after]
  | nop | setsr _ | setph _ => constructor <;> simp [effectOf, opcode, State.marks, Marks.after]
  | rdph | rdf | rdsr | rdd => constructor <;> simp [effectOf, opcode, State.marks, Marks.after]

theorem freq_after (m : Marks) (op : BitVec 8) : (m.after op.toNat).freq = (m.freq || op == 0x02#8) := by
  unfold Marks.after; split <;> simp_all [← BitVec.toNat_inj]

theorem delta_after (m : Marks) (op : BitVec 8) : (m.after op.toNat).delta = (m.delta || op == 0x02#8) := by
  unfold Marks.after; split <;> simp_all [← BitVec.toNat_inj]

theorem sr_after (m : Marks) (op : BitVec 8) : (m.after op.toNat).sr = (m.sr || op == 0x01#8) := by
  unfold Marks.after; split <;> simp_all [← BitVec.toNat_inj]

namespace EffectFrame

variable {i : Instr} {s t : State}

theorem wrFreq (f : EffectFrame i s t) : t.wrFreq = (s.wrFreq || opcode i == 0x02#8) :=
  (congrArg Marks.freq f.marks).trans (freq_after _ _)

theorem wrDelta (f : EffectFrame i s t) : t.wrDelta = (s.wrDelta || opcode i == 0x02#8) :=
  (congrArg Marks.delta f.marks).trans (delta_after _ _)

theorem wrSr (f : EffectFrame i s t) : t.wrSr = (s.wrSr || opcode i == 0x01#8) :=
  (congrArg Marks.sr f.marks).trans (sr_after _ _)

end EffectFrame

/-- Settles O39: an effect keeps every register but its own, and a raised fault keeps them all. -/
theorem registersHaveTheirWriters : Obligations.RegistersHaveTheirWriters := by
  intro i s t h
  rcases (exec_next h).2 with ⟨rfl, -⟩ | ⟨_, reason, -, -, rfl⟩
  · have f := effectOf_frame i s
    exact ⟨f.phase, fun ne => ⟨f.freq ne, f.delta ne, by simp [f.wrFreq, ne], by simp [f.wrDelta, ne]⟩,
      fun ne => ⟨f.sr ne, by simp [f.wrSr, ne]⟩, f.shape, f.inst, f.view, f.run⟩
  · simp

end Sys2Proof.Machine
end

section
/-! What one step can do, said once (10_state.md R38, 60_exceptions.md R137 to R139): every invariant of a step is read
off this list of moves. -/

namespace Sys2Proof.Machine

/-! ### Decoding by opcode (30_encoding.md R67 to R69) -/

theorem opField_of_decode_command {w : CmdWord} {i : Instr} (h : decode w = .command i) : opField w = opcode i := by
  apply BitVec.eq_of_toNat_eq
  unfold decode at h
  split at h <;> cases h <;> assumption

theorem opField_of_decode_reserved {w : CmdWord} {op : BitVec 8} (h : decode w = .reserved op) :
    op = opField w ∧ 0x0A ≤ op.toNat := by
  unfold decode at h
  split at h <;> cases h
  exact ⟨rfl, by simp only [imp_false] at *; omega⟩

/-! ### The moves of a step -/

/-- The moves of a sound state, by its next item: where each one leads and when it can happen. -/
inductive Move (s : State) : State → Prop
  | idle (atEnd : s.nextItem = none) : Move s s
  | reset (item : s.nextItem = some .reset) : Move s s.resetRegisters.advance
  | effect (w : CmdWord) (i : Instr) (item : s.nextItem = some (.command w)) (dec : decode w = .command i)
      (readable : ∀ r reason, guardOf i = some (r, reason) → s.mayRead r = true) : Move s (effectOf i s).advance
  | unwritten (w : CmdWord) (i : Instr) (r : Reg) (reason : Fault) (item : s.nextItem = some (.command w))
      (dec : decode w = .command i) (guarded : guardOf i = some (r, reason)) (unreadable : s.mayRead r = false) :
      Move s (s.raise reason)
  | freeReserved (w : CmdWord) (op : BitVec 8) (item : s.nextItem = some (.command w)) (dec : decode w = .reserved op)
      (hardware : s.view = .hardware) : Move s (s.hardwareReserved op (dataField w)).advance
  | raiseReserved (w : CmdWord) (op : BitVec 8) (item : s.nextItem = some (.command w)) (dec : decode w = .reserved op)
      (checked : s.view = .checked) : Move s (s.raise (.reserved op))

theorem step_of_command {s : State} {w : CmdWord} {i : Instr} (item : s.nextItem = some (.command w))
    (dec : decode w = .command i) : step s = exec i s := by
  rw [step_of_word s w item, dec]

theorem step_of_reserved {s : State} {w : CmdWord} {op : BitVec 8} (item : s.nextItem = some (.command w))
    (dec : decode w = .reserved op) : step s = s.takeReserved op (dataField w) := by
  rw [step_of_word s w item, dec]

theorem takeReserved_next {s t : State} {op : BitVec 8} {data : Word} (h : s.takeReserved op data = .next t) :
    s.flt = none ∧ ((s.view = .hardware ∧ t = (s.hardwareReserved op data).advance) ∨
      (s.view = .checked ∧ t = s.raise (.reserved op))) := by
  have sound := ((whileSound_next_iff _ _ _).mp h).1
  refine ⟨sound, ?_⟩
  cases v : s.view with
  | hardware =>
    rw [takeReserved_hardware s op data sound v] at h
    exact .inl ⟨rfl, (Host.Outcome.next.inj h).symm⟩
  | checked =>
    rw [takeReserved_checked s op data sound v] at h
    exact .inr ⟨rfl, (Host.Outcome.next.inj h).symm⟩

theorem step_next {s t : State} (h : step s = .next t) : s.flt = none ∧ Move s t := by
  cases item : s.nextItem with
  | none =>
    rw [step_of_end s item] at h
    obtain ⟨sound, rfl⟩ := (whileSound_next_iff _ _ _).mp h
    exact ⟨sound, .idle item⟩
  | some next =>
    cases next with
    | reset =>
      rw [step_of_reset s item] at h
      obtain ⟨sound, rfl⟩ := (whileSound_next_iff _ _ _).mp h
      exact ⟨sound, .reset item⟩
    | command w =>
      cases dec : decode w with
      | command i =>
        rw [step_of_command item dec] at h
        obtain ⟨sound, ⟨rfl, readable⟩ | ⟨r, reason, guarded, unreadable, rfl⟩⟩ := exec_next h
        · exact ⟨sound, .effect w i item dec readable⟩
        · exact ⟨sound, .unwritten w i r reason item dec guarded unreadable⟩
      | reserved op =>
        rw [step_of_reserved item dec] at h
        obtain ⟨sound, ⟨v, rfl⟩ | ⟨v, rfl⟩⟩ := takeReserved_next h
        · exact ⟨sound, .freeReserved w op item dec v⟩
        · exact ⟨sound, .raiseReserved w op item dec v⟩

theorem k_lt_of_nextItem {s : State} {item : RunItem} (h : s.nextItem = some item) : s.k < s.run.length :=
  (List.getElem?_eq_some_iff.mp h).1

/-- Settles O6. -/
theorem stepRunsTheDecodedCommand : Obligations.StepRunsTheDecodedCommand :=
  fun _ _ _ item dec _ => step_of_command item dec

/-- Settles O9: every branch of a step stands under the test of `flt`. -/
theorem faultedStateHasNoStep : Obligations.FaultedStateHasNoStep := by
  intro s m h
  have stops (i : Instr) : exec i s = .fault m.reason := by rw [exec_eq_command, command_faulted s _ _ m h]
  refine ⟨?_, stops⟩
  cases item : s.nextItem with
  | none => rw [step_of_end s item]; exact whileSound_faulted s _ m h
  | some next =>
    cases next with
    | reset => rw [step_of_reset s item]; exact whileSound_faulted s _ m h
    | command w =>
      cases dec : decode w with
      | command i => rw [step_of_command item dec]; exact stops i
      | reserved op => rw [step_of_reserved item dec]; exact whileSound_faulted s _ m h

theorem decode_of_decodeTableWord {nbits w : Nat} {i : Instr} (h : decodeTableWord nbits w = some i) :
    decode (tableWord nbits w) = .command i := by
  unfold decodeTableWord at h
  split at h <;> simp_all

/-- Settles O11: the delivered word is the next item, and delivering writes the run alone. -/
theorem deliveredWordRunsNext : Obligations.DeliveredWordRunsNext := by
  intro s nbits w i h
  exact ⟨step_of_command (nextItem_placeNext s _) (decode_of_decodeTableWord h), rfl⟩

/-- Settles O41, by the moves of a step. -/
theorem stepMovesOrMarks : Obligations.StepMovesOrMarks := by
  intro s t h
  obtain ⟨sound, move⟩ := step_next h
  refine ⟨sound, ?_⟩
  cases move with
  | idle atEnd => exact .inr (.inr ⟨List.getElem?_eq_none_iff.mp atEnd, rfl⟩)
  | reset item => exact .inl (by simp [sound, k_lt_of_nextItem item])
  | effect w i item =>
    have f := effectOf_frame i s
    obtain ⟨ys, out, -⟩ := f.out
    exact .inl (by simp [f.flt, f.k, f.run, f.shape, f.inst, f.view, out, sound, k_lt_of_nextItem item])
  | unwritten w i r reason _ _ _ unreadable =>
    exact .inr (.inl ⟨reason, (view_checked_of_mayRead unreadable).1, rfl⟩)
  | freeReserved w op item => exact .inl (by simp [sound, k_lt_of_nextItem item])
  | raiseReserved w op _ _ checked => exact .inr (.inl ⟨.reserved op, checked, rfl⟩)

end Sys2Proof.Machine
end

section
/-! The bookkeeping invariant through each move: the moves without a fault keep the position and the marks' order, and
the moves that raise one explain it (10_state.md R39, 40_configuration.md R87, 60_exceptions.md R137, R138). -/

namespace Sys2Proof.Machine

/-- A state with no fault owes no explanation. -/
theorem consistent_of_sound {t : State} (sound : t.flt = none) (position : t.k ≤ t.run.length)
    (marksTogether : t.wrFreq = t.wrDelta) (deltaNeedsSr : t.view = .checked → t.wrDelta = true → t.wrSr = true) :
    t.Consistent :=
  ⟨position, marksTogether, deltaNeedsSr, fun m h => by simp [sound] at h⟩

/-- Raising a reason keeps the invariant where the command at `k` explains that reason. -/
theorem consistent_raise {s : State} {w : CmdWord} {reason : Fault} (inv : s.Consistent) (checked : s.view = .checked)
    (item : s.nextItem = some (.command w)) (explained : s.explains w reason) : (s.raise reason).Consistent where
  position := inv.position
  marksTogether := inv.marksTogether
  deltaNeedsSr := inv.deltaNeedsSr
  faultExplained := by
    rintro m ⟨⟩
    exact ⟨checked, rfl, w, item, by cases reason <;> exact explained⟩

/-- R137's table: an unwritten register under a command's guard explains the reason the guard raises. -/
theorem explains_of_guard {s : State} {w : CmdWord} {i : Instr} {r : Reg} {reason : Fault}
    (op : opField w = opcode i) (guarded : guardOf i = some (r, reason)) (unwritten : s.isWritten r = false) :
    s.explains w reason := by
  cases i with
  | setf _ | proc | rdf | rdsr | rdd => cases guarded; simpa [State.explains, op, opcode] using unwritten
  | nop | setsr _ | setph _ | offph _ | rdph => cases guarded

theorem guardOf_of_opcode_setf {i : Instr} (h : opcode i = 0x02#8) : guardOf i = some (.sr, .uninitSr) := by
  cases i <;> simp_all [opcode, guardOf]

/-- The effect of a command keeps the marks' order: SETF alone marks DELTA, and in the checked view it ran because SR
was marked. -/
theorem effectOf_marks_order {s : State} {i : Instr} (inv : s.Consistent) (checked : s.view = .checked)
    (readable : ∀ r reason, guardOf i = some (r, reason) → s.mayRead r = true)
    (marked : (effectOf i s).wrDelta = true) : (effectOf i s).wrSr = true := by
  have f := effectOf_frame i s
  have marked' : s.wrDelta = true ∨ opcode i = 0x02#8 := by simpa [f.wrDelta] using marked
  have srMarked : s.wrSr = true := by
    rcases marked' with old | setf
    · exact inv.deltaNeedsSr checked old
    · simpa [checked] using readable .sr .uninitSr (guardOf_of_opcode_setf setf)
  simp [f.wrSr, srMarked]

/-- Settles O38, by the moves of a step. -/
theorem stepKeepsConsistency : Obligations.StepKeepsConsistency := by
  intro s t inv h
  obtain ⟨sound, move⟩ := step_next h
  cases move with
  | idle => exact inv
  | reset item => exact consistent_of_sound sound (k_lt_of_nextItem item) rfl nofun
  | effect w i item dec readable =>
    have f := effectOf_frame i s
    refine consistent_of_sound (f.flt.trans sound) ?_ ?_ fun checked marked => ?_
    · simpa [f.k, f.run] using k_lt_of_nextItem item
    · simp [f.wrFreq, f.wrDelta, inv.marksTogether]
    · exact effectOf_marks_order inv (f.view.symm.trans checked) readable marked
  | unwritten w i r reason item dec guarded unreadable =>
    obtain ⟨checked, unwritten⟩ := view_checked_of_mayRead unreadable
    exact consistent_raise inv checked item (explains_of_guard (opField_of_decode_command dec) guarded unwritten)
  | freeReserved w op item =>
    exact consistent_of_sound sound (k_lt_of_nextItem item) inv.marksTogether inv.deltaNeedsSr
  | raiseReserved w op item dec checked => exact consistent_raise inv checked item (opField_of_decode_reserved dec)

end Sys2Proof.Machine
end

section
/-! The view and the fault mark are bookkeeping: every effect commutes with seeing the state as the hardware
(10_state.md R39, 60_exceptions.md R135, R137). -/

namespace Sys2Proof.Machine

theorem withResult_asHardware (s : State) (r : FResult) {body : Word → State → State}
    (commutes : ∀ v s, body v s.asHardware = (body v s).asHardware) :
    s.asHardware.withResult r body = (s.withResult r body).asHardware := by
  cases r with
  | num v => exact commutes v s
  | nan => exact commutes _ { s with draws := s.draws + 1 }

theorem withShaped_asHardware (s : State) (p : Word) {body : Word → State → State}
    (commutes : ∀ v s, body v s.asHardware = (body v s).asHardware) :
    s.asHardware.withShaped p body = (s.withShaped p body).asHardware := by
  cases shape : s.shape with
  | ramp => rw [withShaped_ramp s p body shape, withShaped_ramp s.asHardware p body shape, commutes]
  | sine =>
    rw [withShaped_sine s p body shape, withShaped_sine s.asHardware p body shape]
    exact withResult_asHardware s _ fun x s => withResult_asHardware s (fsin s.inst x) commutes

theorem effectOf_asHardware (i : Instr) (s : State) : effectOf i s.asHardware = (effectOf i s).asHardware := by
  unfold effectOf
  cases i with
  | setf freq => exact withResult_asHardware (s.writeReg .freq freq) _ fun _ _ => rfl
  | offph offset => exact withResult_asHardware s _ fun _ _ => rfl
  | proc =>
    refine withResult_asHardware s _ fun sum s => ?_
    refine withResult_asHardware s _ fun p s => ?_
    exact withShaped_asHardware (s.writeReg .phase p) p fun _ _ => rfl
  | nop | setsr _ | setph _ | rdph | rdf | rdsr | rdd => rfl

theorem exec_asHardware (i : Instr) (s : State) : exec i s.asHardware = .next (effectOf i s).asHardware.advance := by
  rw [exec_eq_command, command_hardware s.asHardware _ _ rfl rfl, effectOf_asHardware]

/-- Settles O45: each move without a fault is the move the hardware makes. -/
theorem hardwareAgreesWhereTheModelIsSound : Obligations.HardwareAgreesWhereTheModelIsSound := by
  intro s t h noFault
  cases (step_next h).2 with
  | idle atEnd => exact ⟨s.asHardware, step_of_end s.asHardware atEnd, rfl⟩
  | reset item => exact ⟨s.asHardware.resetRegisters.advance, step_of_reset s.asHardware item, rfl⟩
  | effect w i item dec =>
    exact ⟨_, (step_of_command (s := s.asHardware) item dec).trans (exec_asHardware i s), rfl⟩
  | freeReserved w op item dec =>
    exact ⟨(s.asHardware.hardwareReserved op (dataField w)).advance, step_of_reserved (s := s.asHardware) item dec, rfl⟩
  | unwritten | raiseReserved => simp at noFault

end Sys2Proof.Machine
end

section
/-! Extending a run that is executed in full: the new item is the last one, and executing it leaves nothing to execute
(30_encoding.md R77, 10_state.md R38). -/

namespace Sys2Proof.Machine

theorem placeNext_of_caughtUp {s : State} (caughtUp : s.k = s.run.length) (item : RunItem) :
    s.placeNext item = { s with run := s.run ++ [item] } := by
  simp [State.placeNext, caughtUp]

theorem consistent_placeNext {s : State} {item : RunItem} (inv : s.Consistent) (sound : s.flt = none)
    (caughtUp : s.k = s.run.length) : (s.placeNext item).Consistent := by
  rw [placeNext_of_caughtUp caughtUp]
  exact consistent_of_sound sound (by simp [caughtUp]) inv.marksTogether inv.deltaNeedsSr

/-- Only a sound core goes on: placing the next item leaves the fault mark as it was. -/
theorem extend_sound {s t : State} {item : RunItem} (h : s.extend item = .next t) : s.flt = none :=
  (step_next h).1

theorem extend_consistent {s t : State} {item : RunItem} (inv : s.Consistent) (caughtUp : s.k = s.run.length)
    (h : s.extend item = .next t) : t.Consistent :=
  stepKeepsConsistency _ _ (consistent_placeNext inv (extend_sound h) caughtUp) h

/-- Without a fault the one item that was left is executed; the step cannot be idle, since that item was next. -/
theorem extend_caughtUp {s t : State} {item : RunItem} (caughtUp : s.k = s.run.length) (h : s.extend item = .next t)
    (noFault : t.flt = none) : t.k = t.run.length := by
  have left : (s.placeNext item).k < (s.placeNext item).run.length := k_lt_of_nextItem (nextItem_placeNext s item)
  rcases (stepMovesOrMarks _ _ h).2 with ⟨-, k, -, -, run, -⟩ | ⟨reason, -, rfl⟩ | ⟨atEnd, -⟩
  · simp [k, run, placeNext_of_caughtUp caughtUp, caughtUp]
  · simp at noFault
  · omega

end Sys2Proof.Machine
end

section
/-! What one clock edge can do, said once (30_encoding.md R73 to R76, 70_reset_and_hazards.md R160 to R163): every fact
about an edge is read off this list of moves. -/

namespace Sys2Proof.Machine

/-- The block after an edge with the inputs `h`: every edge records the standing offer and is counted, and leaves its
own core and stage. -/
def Block.after (b : Block) (h : HostPins) (core : State) (stage : Stage) : Block where
  core := core
  stage := stage
  offer := b.standingOffer h
  edges := b.edges + 1

@[simp] theorem after_core (b : Block) (h : HostPins) (core : State) (stage : Stage) :
    (b.after h core stage).core = core := rfl
@[simp] theorem after_stage (b : Block) (h : HostPins) (core : State) (stage : Stage) :
    (b.after h core stage).stage = stage := rfl
@[simp] theorem after_offer (b : Block) (h : HostPins) (core : State) (stage : Stage) :
    (b.after h core stage).offer = b.standingOffer h := rfl
@[simp] theorem after_edges (b : Block) (h : HostPins) (core : State) (stage : Stage) :
    (b.after h core stage).edges = b.edges + 1 := rfl

/-- The moves of a block at an edge, by the reset pin and what the block is doing. -/
inductive EdgeMove (b : Block) (h : HostPins) : Block → Prop
  | reset (core : State) (rst : h.rst = true)
      (outcome : { b.core with draws := b.drawsMade }.extend .reset = .next core) :
      EdgeMove b h (b.after h core (.recovering (Config.recovery b.core.inst b.edges - 1)))
  | recovered (rst : h.rst = false) (stage : b.stage = .recovering 0) : EdgeMove b h (b.after h b.core .ready)
  | recovering (left : Nat) (rst : h.rst = false) (stage : b.stage = .recovering (left + 1)) :
      EdgeMove b h (b.after h b.core (.recovering left))
  | waiting (rst : h.rst = false) (stage : b.stage = .ready) (cmdValid : h.cmdValid = false) :
      EdgeMove b h (b.after h b.core .ready)
  | accepted (after : State) (rst : h.rst = false) (stage : b.stage = .ready) (cmdValid : h.cmdValid = true)
      (outcome : b.core.extend (.command h.cmdWord) = .next after) :
      EdgeMove b h (b.after h b.core (.working h.cmdWord after (newResponse b.core after)
        (Config.latCmd b.core.inst b.edges h.cmdWord - 1)))
  | computing (w : CmdWord) (after : State) (response : Option Word) (left : Nat) (rst : h.rst = false)
      (stage : b.stage = .working w after response (left + 1)) :
      EdgeMove b h (b.after h b.core (.working w after response left))
  | finished (w : CmdWord) (after : State) (response : Option Word) (rst : h.rst = false)
      (stage : b.stage = .working w after response 0) (taken : response = none ∨ h.rspReady = true) :
      EdgeMove b h (b.after h after .ready)
  | stalled (w : CmdWord) (after : State) (v : Word) (rst : h.rst = false)
      (stage : b.stage = .working w after (some v) 0) (rspReady : h.rspReady = false) :
      EdgeMove b h (b.after h b.core b.stage)

theorem resetEdge_next {b b' : Block} (h : b.resetEdge = .next b') :
    ∃ core, { b.core with draws := b.drawsMade }.extend .reset = .next core ∧
      b' = { b with
        core := core, stage := .recovering (Config.recovery b.core.inst b.edges - 1), edges := b.edges + 1 } := by
  unfold Block.resetEdge at h
  split at h
  · exact ⟨_, ‹_›, (Host.Outcome.next.inj h).symm⟩
  · cases h
  · cases h

theorem acceptEdge_next {b b' : Block} {w : CmdWord} (h : b.acceptEdge w = .next b') :
    ∃ after, b.core.extend (.command w) = .next after ∧
      b' = { b with
        stage := .working w after (newResponse b.core after) (Config.latCmd b.core.inst b.edges w - 1)
        edges := b.edges + 1 } := by
  unfold Block.acceptEdge at h
  split at h
  · exact ⟨_, ‹_›, (Host.Outcome.next.inj h).symm⟩
  · cases h
  · cases h

/-- An edge out of reset makes the move of the block's stage; the offer is recorded first. -/
theorem workEdge_next {b b' : Block} {h : HostPins} (rst : h.rst = false)
    (e : { b with offer := b.standingOffer h }.workEdge h = .next b') : EdgeMove b h b' := by
  unfold Block.workEdge at e
  split at e
  next stage => cases e; exact .recovered rst stage
  next left stage => cases e; exact .recovering left rst stage
  next stage =>
    split at e
    next cmdValid =>
      obtain ⟨after, outcome, rfl⟩ := acceptEdge_next e
      exact .accepted after rst stage cmdValid outcome
    next notValid =>
      cases e
      exact stage ▸ .waiting rst stage (Bool.eq_false_of_not_eq_true notValid)
  next w after response left stage => cases e; exact .computing w after response left rst stage
  next w after stage => cases e; exact .finished w after none rst stage (.inl rfl)
  next w after v stage =>
    split at e
    next rspReady => cases e; exact .finished w after (some v) rst stage (.inr rspReady)
    next notReady => cases e; exact .stalled w after v rst stage (Bool.eq_false_of_not_eq_true notReady)

theorem edge_move {b b' : Block} {h : HostPins} (e : b.edge h = .next b') : EdgeMove b h b' := by
  obtain ⟨-, -, e⟩ := edge_next b b' h e
  cases rst : h.rst with
  | true =>
    obtain ⟨core, outcome, rfl⟩ := resetEdge_next (by simpa [rst] using e)
    exact .reset core rst outcome
  | false => exact workEdge_next rst (by simpa [rst] using e)

end Sys2Proof.Machine
end

section
/-! The block's invariant through each move of an edge: the core changes at a reset and at a finishing edge alone, each
time by one more item executed (30_encoding.md R75, R77, 70_reset_and_hazards.md R172). -/

namespace Sys2Proof.Machine

theorem latCmd_sub_one_lt_latMax (inst edge : Nat) (w : CmdWord) :
    Config.latCmd inst edge w - 1 < Config.latMax inst :=
  Nat.mod_lt _ (Nat.succ_pos _)

/-- A block with no command in it owes no outcome. -/
theorem block_consistent_of_noCommand {b : Block} (core : b.core.Consistent)
    (caughtUp : b.core.flt = none → b.core.k = b.core.run.length)
    (noCommand : ∀ w after response left, b.stage ≠ .working w after response left) : b.Consistent :=
  ⟨core, caughtUp, fun w after response left stage => absurd stage (noCommand w after response left)⟩

theorem start_consistent (view : View) (inst : Nat) (shape : Shape) (run : List RunItem) :
    (State.start view inst shape run).Consistent :=
  consistent_of_sound rfl (Nat.zero_le _) rfl nofun

theorem start_block_consistent (view : View) (inst : Nat) (shape : Shape) :
    (Block.start view inst shape).Consistent :=
  block_consistent_of_noCommand (start_consistent view inst shape []) (fun _ => rfl) nofun

/-- The outcome of one more item leaves a consistent block, once no command is in it. -/
theorem block_consistent_of_extend {b : Block} {s : State} {item : RunItem} (inv : s.Consistent)
    (caughtUp : s.k = s.run.length) (outcome : s.extend item = .next b.core)
    (noCommand : ∀ w after response left, b.stage ≠ .working w after response left) : b.Consistent :=
  block_consistent_of_noCommand (extend_consistent inv caughtUp outcome) (extend_caughtUp caughtUp outcome) noCommand

/-- A reset takes the core with the draws of the abandoned command; the invariant does not speak of draws. -/
theorem consistent_withDraws {s : State} (inv : s.Consistent) (sound : s.flt = none) (n : Nat) :
    { s with draws := n }.Consistent :=
  consistent_of_sound sound inv.position inv.marksTogether inv.deltaNeedsSr

theorem EdgeMove.keeps_consistent {b b' : Block} {h : HostPins} (move : EdgeMove b h b') (sound : b.core.flt = none)
    (inv : b.Consistent) : b'.Consistent := by
  have caughtUp := inv.caughtUp sound
  cases move with
  | reset core _ outcome =>
    exact block_consistent_of_extend (consistent_withDraws inv.core sound b.drawsMade) caughtUp outcome nofun
  | recovered | recovering | waiting => exact block_consistent_of_noCommand inv.core inv.caughtUp nofun
  | accepted after _ _ _ outcome =>
    refine ⟨inv.core, inv.caughtUp, ?_⟩
    rintro _ _ _ _ ⟨⟩
    exact ⟨outcome, rfl, latCmd_sub_one_lt_latMax _ _ _⟩
  | computing w after response left _ stage =>
    obtain ⟨outcome, isResponse, bound⟩ := inv.outcome _ _ _ _ stage
    refine ⟨inv.core, inv.caughtUp, ?_⟩
    rintro _ _ _ _ ⟨⟩
    exact ⟨outcome, isResponse, Nat.lt_of_succ_lt bound⟩
  | finished w after response _ stage =>
    exact block_consistent_of_extend inv.core caughtUp (inv.outcome _ _ _ _ stage).1 nofun
  | stalled => exact ⟨inv.core, inv.caughtUp, inv.outcome⟩

/-- Settles O47, by the moves of an edge. -/
theorem edgeKeepsBlockConsistency : Obligations.EdgeKeepsBlockConsistency :=
  ⟨start_block_consistent, fun b b' h inv e => (edge_move e).keeps_consistent (edge_next b b' h e).1 inv⟩

end Sys2Proof.Machine
end

section
/-! The encoder and the decoder are inverse to each other on canonical words, and `DATA` never chooses the command
(30_encoding.md R65 to R70, R82). -/

namespace Sys2Proof.Machine

/-! ### Fields and opcodes (R65 to R67) -/

theorem opField_encode (i : Instr) : opField (encode i) = opcode i := Laws.opField_commandWord _ _

theorem dataField_encode (i : Instr) : dataField (encode i) = (operand i).getD 0#64 := Laws.dataField_commandWord _ _

/-- A word is nothing but its two fields. -/
theorem commandWord_fields (w : CmdWord) : commandWord (opField w) (dataField w) = w := by
  apply BitVec.eq_of_toNat_eq
  have hw := w.isLt
  simp only [opField, dataField, commandWord, BitVec.extractLsb'_toNat, BitVec.toNat_append]
  rw [Nat.shiftLeft_eq, Nat.shiftRight_eq_div_pow, Nat.shiftRight_zero, Nat.mul_comm,
    ← Nat.two_pow_add_eq_or_of_lt (Nat.mod_lt _ (by norm_num))]
  omega

theorem opcode_le (i : Instr) : (opcode i).toNat ≤ 0x09 := by cases i <;> simp [opcode]

/-- The commands with an operand are the opcodes 0x01 to 0x04. -/
theorem operand_eq_none_iff (i : Instr) :
    operand i = none ↔ ¬ (0x01 ≤ (opcode i).toNat ∧ (opcode i).toNat ≤ 0x04) := by
  cases i <;> simp [operand, opcode]

theorem canonicalWord_iff (w : CmdWord) : canonicalWord w = true ↔ (opField w).toNat ≤ 0x09 ∧
    ((0x01 ≤ (opField w).toNat ∧ (opField w).toNat ≤ 0x04) ∨ dataField w = 0#64) := by
  simp [canonicalWord, assignedWord]

theorem canonicalWord_encode (i : Instr) : canonicalWord (encode i) = true := by
  rw [canonicalWord_iff, opField_encode, dataField_encode]
  refine ⟨opcode_le i, ?_⟩
  by_cases bare : operand i = none
  · exact .inr (by rw [bare, Option.getD_none])
  · exact .inl (not_not.mp (mt (operand_eq_none_iff i).mpr bare))

/-! ### Decoding (R67 to R70) -/

theorem decode_encode (i : Instr) : decode (encode i) = .command i := by
  have op := opField_encode i
  have data := dataField_encode i
  cases i with
  | setsr d | setf d | setph d | offph d => simp [decode, op, data, opcode, operand]
  | nop | proc | rdph | rdf | rdsr | rdd => simp [decode, op, opcode]

/-- Settles O1. -/
theorem encodedCommandDecodes : Obligations.EncodedCommandDecodes :=
  fun i _ => ⟨decode_encode i, canonicalWord_encode i⟩

theorem encode_injective : Function.Injective encode := by
  intro i j same
  have decoded := congrArg decode same
  rw [decode_encode, decode_encode] at decoded
  exact Decoded.command.inj decoded

theorem opcode_eq_of_decode {op : BitVec 8} {d : Word} {i : Instr} (h : decode (commandWord op d) = .command i) :
    opcode i = op :=
  (opField_of_decode_command h).symm.trans (Laws.opField_commandWord op d)

/-- A decoded command's operand is the whole of `DATA` (R66). -/
theorem operand_of_decode {w : CmdWord} {i : Instr} {x : Word} (h : decode w = .command i) (hx : operand i = some x) :
    x = dataField w := by
  unfold decode at h
  split at h <;> cases h <;> cases hx <;> rfl

/-- Settles O3: a word that decodes to a command has that command's opcode, at most 0x09. -/
theorem reservedOpcodesByNumber : Obligations.ReservedOpcodesByNumber := by
  intro w op
  refine ⟨opField_of_decode_reserved, ?_⟩
  rintro ⟨rfl, large⟩
  cases dec : decode w with
  | reserved op => rw [(opField_of_decode_reserved dec).1]
  | command i =>
    have small := opcode_le i
    rw [← opField_of_decode_command dec] at small
    omega

theorem exists_command_of_assigned {w : CmdWord} (assigned : (opField w).toNat ≤ 0x09) :
    ∃ i, decode w = .command i := by
  cases dec : decode w with
  | command i => exact ⟨i, rfl⟩
  | reserved op =>
    obtain ⟨rfl, large⟩ := opField_of_decode_reserved dec
    omega

/-- A canonical word is what the command it decodes to is encoded as: no bit of `DATA` is lost. -/
theorem encode_of_decode {w : CmdWord} {i : Instr} (canonical : canonicalWord w = true) (h : decode w = .command i) :
    encode i = w := by
  have op := opField_of_decode_command h
  have data : (operand i).getD 0#64 = dataField w := by
    cases o : operand i with
    | some x => exact operand_of_decode h o
    | none =>
      rw [operand_eq_none_iff, ← op] at o
      exact (((canonicalWord_iff w).mp canonical).2.resolve_left o).symm
  rw [encode, ← op, data, commandWord_fields]

/-- Settles O2. -/
theorem canonicalWordIsEncoding : Obligations.CanonicalWordIsEncoding := by
  intro w canonical
  obtain ⟨i, dec⟩ := exists_command_of_assigned ((canonicalWord_iff w).mp canonical).1
  exact ⟨i, dec, encode_of_decode canonical dec⟩

/-- Settles O4: both words have the same opcode, which alone says whether they are commands, which one, and whether
there is an operand. -/
theorem dataNeverChangesTheCommand : Obligations.DataNeverChangesTheCommand := by
  intro op d d'
  constructor
  · intro r h
    rw [reservedOpcodesByNumber, Laws.opField_commandWord] at h ⊢
    exact h
  · intro i h
    have opi := opcode_eq_of_decode h
    obtain ⟨j, h'⟩ := exists_command_of_assigned (w := commandWord op d') <| by
      rw [Laws.opField_commandWord, ← opi]
      exact opcode_le i
    have same : opcode j = opcode i := (opcode_eq_of_decode h').trans opi.symm
    have bare_iff : operand j = none ↔ operand i = none := by rw [operand_eq_none_iff, same, ← operand_eq_none_iff]
    refine ⟨j, h', same, fun bare => ?_, fun x hx => ?_⟩
    · apply encode_injective
      rw [encode, encode, same, bare, bare_iff.mpr bare]
    · obtain ⟨y, hy⟩ := Option.ne_none_iff_exists'.mp (mt bare_iff.mp (by simp [hx]))
      rw [hy, operand_of_decode h hx, operand_of_decode h' hy, Laws.dataField_commandWord, Laws.dataField_commandWord]
      exact ⟨rfl, rfl⟩

/-- Settles O5: each word is evaluated. -/
theorem exampleWordsDecode : Obligations.ExampleWordsDecode := by
  unfold Obligations.ExampleWordsDecode
  decide

end Sys2Proof.Machine
end

section
/-! What one command adds to the response stream (30_encoding.md R69, R78). -/

namespace Sys2Proof.Machine

/-- Settles O40: a command's effect adds the responses its opcode says, and a raised fault adds none. -/
theorem oneResponsePerReadingCommand : Obligations.OneResponsePerReadingCommand := by
  intro i s t h
  rcases (exec_next h).2 with ⟨rfl, -⟩ | ⟨_, reason, -, -, rfl⟩
  · obtain ⟨ys, out, count⟩ := (effectOf_frame i s).out
    constructor
    · intro _ reading
      rw [if_neg (by omega)] at count
      obtain ⟨v, rfl⟩ := List.length_eq_one_iff.mp count
      exact ⟨v, out⟩
    · intro silent
      rw [if_pos silent] at count
      obtain rfl := List.length_eq_zero_iff.mp count
      simpa using out
  · exact ⟨fun noFault => by simp at noFault, fun _ => rfl⟩

/-- A reserved opcode on the hardware gives at most one response (R69). -/
theorem Move.out_append {s t : State} (move : Move s t) : ∃ ys, t.out = s.out ++ ys ∧ ys.length ≤ 1 := by
  cases move with
  | effect w i =>
    obtain ⟨ys, out, count⟩ := (effectOf_frame i s).out
    exact ⟨ys, out, by split at count <;> omega⟩
  | freeReserved w op => exact ⟨_, rfl, Option.length_toList_le⟩
  | idle | reset | unwritten | raiseReserved => exact ⟨[], by simp, Nat.zero_le _⟩

/-- Settles O7: the word decodes to its reserved opcode, which each view takes in its own way. -/
theorem reservedOpcodeFaults : Obligations.ReservedOpcodeFaults := by
  intro s w sound item large
  have dec : decode w = .reserved (opField w) := (reservedOpcodesByNumber w _).mpr ⟨rfl, large⟩
  rw [step_of_reserved item dec]
  constructor
  · intro checked
    exact takeReserved_checked s _ _ sound checked
  · intro hardware
    rw [takeReserved_hardware s _ _ sound hardware]
    exact ⟨_, _, _, _, _, _, Option.length_toList_le, rfl⟩

end Sys2Proof.Machine
end

section
/-! The moves of an edge as equations: which edge a block makes, given its stage and a host that keeps the handshake
(30_encoding.md R72 to R76, 60_exceptions.md R146). -/

namespace Sys2Proof.Machine

/-! ### The pins (R72, R76) -/

/-- A block takes a command only out of reset and with no command in it. -/
theorem cmdReady_iff (b : Block) (rst : Bool) :
    (b.pins rst).cmdReady = true ↔ rst = false ∧ b.stage = .ready := by
  unfold Block.pins
  split <;> simp_all

theorem rspValid_iff (b : Block) (rst : Bool) :
    (b.pins rst).rspValid = true ↔ rst = false ∧ ∃ w after v, b.stage = .working w after (some v) 0 := by
  unfold Block.pins
  split <;> simp_all

/-- While a response is valid, `rsp_data` is the response. -/
theorem pins_of_answer {b : Block} {w : CmdWord} {after : State} {v : Word}
    (stage : b.stage = .working w after (some v) 0) :
    b.pins false = { cmdReady := false, rspValid := true, rspData := v } := by
  simp [Block.pins, stage]

/-- Settles O46. -/
theorem pinsInResetAndWhileWorking : Obligations.PinsInResetAndWhileWorking := by
  refine ⟨fun b => ⟨?_, ?_⟩, fun b w after response left rst stage => ?_⟩
  · simp [← Bool.not_eq_true, cmdReady_iff]
  · simp [← Bool.not_eq_true, rspValid_iff]
  · simp [← Bool.not_eq_true, cmdReady_iff, stage]

/-! ### The host's offer (R73, R146) -/

theorem hostHolds_working (offer : Option CmdWord) {h : HostPins} (rst : h.rst = false) :
    hostHolds offer h = true ↔ ∀ w, offer = some w → h.cmdValid = true ∧ h.cmdWord = w := by
  cases offer <;> simp [hostHolds, rst]

theorem hostHolds_reset (offer : Option CmdWord) {h : HostPins} (rst : h.rst = true) :
    hostHolds offer h = true ↔ h.cmdValid = false := by
  simp [hostHolds, rst]

theorem standingOffer_eq_some_iff (b : Block) (h : HostPins) (w : CmdWord) : b.standingOffer h = some w ↔
    (h.rst = false ∧ h.cmdValid = true ∧ (b.pins h.rst).cmdReady = false) ∧ h.cmdWord = w := by
  simp [Block.standingOffer, and_assoc]

/-! ### Edges of a sound block -/

theorem edge_refused {b : Block} {h : HostPins} (sound : b.core.flt = none) (breaks : hostHolds b.offer h = false) :
    b.edge h = .refused .hostBreaksHandshake := by
  simp [Block.edge, sound, breaks]

theorem edge_of_reset {b : Block} {h : HostPins} (sound : b.core.flt = none) (holds : hostHolds b.offer h = true)
    (rst : h.rst = true) : b.edge h = { b with offer := b.standingOffer h }.resetEdge := by
  simp [Block.edge, sound, holds, rst]

theorem edge_of_work {b : Block} {h : HostPins} (sound : b.core.flt = none) (holds : hostHolds b.offer h = true)
    (rst : h.rst = false) : b.edge h = { b with offer := b.standingOffer h }.workEdge h := by
  simp [Block.edge, sound, holds, rst]

theorem acceptEdge_eq {b : Block} {w : CmdWord} {after : State} (outcome : b.core.extend (.command w) = .next after) :
    b.acceptEdge w = .next { b with
      stage := .working w after (newResponse b.core after) (Config.latCmd b.core.inst b.edges w - 1)
      edges := b.edges + 1 } := by
  simp [Block.acceptEdge, outcome]

theorem resetEdge_eq {b : Block} {core : State}
    (outcome : { b.core with draws := b.drawsMade }.extend .reset = .next core) :
    b.resetEdge = .next { b with
      core := core, stage := .recovering (Config.recovery b.core.inst b.edges - 1), edges := b.edges + 1 } := by
  simp [Block.resetEdge, outcome]

section
variable {b : Block} {h : HostPins} (sound : b.core.flt = none) (holds : hostHolds b.offer h = true)
  (rst : h.rst = false)
include sound holds rst

theorem edge_accepts {after : State} (stage : b.stage = .ready) (cmdValid : h.cmdValid = true)
    (outcome : b.core.extend (.command h.cmdWord) = .next after) :
    b.edge h = .next (b.after h b.core (.working h.cmdWord after (newResponse b.core after)
      (Config.latCmd b.core.inst b.edges h.cmdWord - 1))) := by
  rw [edge_of_work sound holds rst, Block.workEdge]
  simp only [stage, cmdValid, if_true]
  exact acceptEdge_eq outcome

theorem edge_computes {w : CmdWord} {after : State} {response : Option Word} {left : Nat}
    (stage : b.stage = .working w after response (left + 1)) :
    b.edge h = .next (b.after h b.core (.working w after response left)) := by
  rw [edge_of_work sound holds rst, Block.workEdge]
  simp only [stage]
  rfl

theorem edge_finishes {w : CmdWord} {after : State} {response : Option Word}
    (stage : b.stage = .working w after response 0) (taken : h.rspReady = true) :
    b.edge h = .next (b.after h after .ready) := by
  rw [edge_of_work sound holds rst, Block.workEdge]
  cases response <;> simp only [stage, taken, if_true] <;> rfl

theorem edge_stalls {w : CmdWord} {after : State} {v : Word}
    (stage : b.stage = .working w after (some v) 0) (notTaken : h.rspReady = false) :
    b.edge h = .next (b.after h b.core b.stage) := by
  rw [edge_of_work sound holds rst, Block.workEdge]
  simp only [stage, notTaken, Bool.false_eq_true, if_false]
  rfl

end

/-! ### Every sound block has a move (R146) -/

/-- A sound state has a step: no command, reset event or reserved opcode refuses (60_exceptions.md R135, R138). -/
theorem exists_step_of_sound {s : State} (sound : s.flt = none) : ∃ t, step s = .next t := by
  cases item : s.nextItem with
  | none => exact ⟨s, by rw [step_of_end s item]; exact whileSound_sound s _ sound⟩
  | some next =>
    cases next with
    | reset => exact ⟨_, by rw [step_of_reset s item]; exact whileSound_sound s _ sound⟩
    | command w =>
      cases dec : decode w with
      | command i =>
        rw [step_of_command item dec, exec_eq_command]
        exact ⟨_, whileSound_sound s _ sound⟩
      | reserved op => exact ⟨_, by rw [step_of_reserved item dec]; exact whileSound_sound s _ sound⟩

theorem exists_extend_of_sound {s : State} (item : RunItem) (sound : s.flt = none) : ∃ t, s.extend item = .next t :=
  exists_step_of_sound (s := s.placeNext item) sound

theorem exists_edge_of_hostHolds {b : Block} {h : HostPins} (sound : b.core.flt = none)
    (holds : hostHolds b.offer h = true) : ∃ b', b.edge h = .next b' := by
  cases rst : h.rst with
  | true =>
    obtain ⟨core, outcome⟩ := exists_extend_of_sound (s := { b.core with draws := b.drawsMade }) .reset sound
    exact ⟨_, (edge_of_reset sound holds rst).trans (resetEdge_eq outcome)⟩
  | false =>
    cases stage : b.stage with
    | recovering left =>
      rw [edge_of_work sound holds rst, Block.workEdge]
      cases left <;> simp only [stage] <;> exact ⟨_, rfl⟩
    | ready =>
      cases cmdValid : h.cmdValid with
      | true =>
        obtain ⟨after, outcome⟩ := exists_extend_of_sound (.command h.cmdWord) sound
        exact ⟨_, edge_accepts sound holds rst stage cmdValid outcome⟩
      | false =>
        rw [edge_of_work sound holds rst, Block.workEdge]
        simp only [stage, cmdValid]
        exact ⟨_, rfl⟩
    | working w after response left =>
      cases left with
      | succ left => exact ⟨_, edge_computes sound holds rst stage⟩
      | zero =>
        cases taken : h.rspReady with
        | true => exact ⟨_, edge_finishes sound holds rst stage taken⟩
        | false =>
          cases response with
          | some v => exact ⟨_, edge_stalls sound holds rst stage taken⟩
          | none =>
            rw [edge_of_work sound holds rst, Block.workEdge]
            simp only [stage]
            exact ⟨_, rfl⟩

/-- Every edge records the offer that stands after it. -/
theorem EdgeMove.offer_eq {b b' : Block} {h : HostPins} (move : EdgeMove b h b') : b'.offer = b.standingOffer h := by
  cases move <;> rfl

/-- An accepted word, a reset and an edge that offers nothing leave no offer standing. -/
theorem offer_eq_none_of_edge {b b' : Block} {h : HostPins} (e : b.edge h = .next b')
    (noOffer : h.rst = true ∨ h.cmdValid = false ∨ (b.pins false).cmdReady = true) : b'.offer = none := by
  rw [(edge_move e).offer_eq, Option.eq_none_iff_forall_ne_some]
  intro w stands
  obtain ⟨⟨rst, cmdValid, notReady⟩, -⟩ := (standingOffer_eq_some_iff b h w).mp stands
  rw [rst] at notReady
  simp [rst, cmdValid, notReady] at noOffer

/-- Settles O57: the offer an edge records is the one the host has to keep at the next. -/
theorem handshakeBreakHasNoMove : Obligations.HandshakeBreakHasNoMove := by
  refine ⟨fun b b' h h' e rst cmdValid notReady sound rst' breaks => ?_, fun b h sound rst cmdValid => ?_,
    fun _ _ => exists_edge_of_hostHolds, fun _ _ _ => offer_eq_none_of_edge⟩
  · have offer : b'.offer = some h.cmdWord := by
      rw [(edge_move e).offer_eq, standingOffer_eq_some_iff, rst]
      exact ⟨⟨rfl, cmdValid, notReady⟩, rfl⟩
    apply edge_refused sound
    rw [← Bool.not_eq_true, hostHolds_working _ rst']
    intro keeps
    obtain ⟨valid, same⟩ := keeps _ offer
    rcases breaks with withdrawn | changed
    · simp [withdrawn] at valid
    · exact changed same
  · apply edge_refused sound
    rw [← Bool.not_eq_true, hostHolds_reset _ rst, cmdValid]
    exact Bool.noConfusion

end Sys2Proof.Machine
end

section
/-! A response is held until it is taken (30_encoding.md R74), and an accepted command finishes within its latency
(70_reset_and_hazards.md R171, R172). -/

namespace Sys2Proof.Machine

/-- The one response a command added is all it added to the stream (R78). -/
theorem out_of_newResponse {s t : State} {item : RunItem} {v : Word} (outcome : s.extend item = .next t)
    (response : newResponse s t = some v) : t.out = s.out ++ [v] := by
  obtain ⟨ys, out, short⟩ := (step_next outcome).2.out_append
  rw [placeNext_out] at out
  rw [newResponse, out, List.getElem?_append_right le_rfl, Nat.sub_self] at response
  match ys with
  | [y] => simpa [out] using response

/-- Settles O48: the waiting edge changes nothing but the offer, and the delivering edge puts the command's outcome into
the core. -/
theorem responseIsHeldUntilTaken : Obligations.ResponseIsHeldUntilTaken := by
  intro b h inv sound valid rst holds
  obtain ⟨-, w, after, v, stage⟩ := (rspValid_iff b false).mp valid
  obtain ⟨outcome, isResponse, -⟩ := inv.outcome _ _ _ _ stage
  rw [pins_of_answer stage]
  cases taken : h.rspReady with
  | true =>
    refine ⟨_, edge_finishes sound holds rst stage taken, nofun, fun _ => ⟨rfl, ?_⟩⟩
    exact out_of_newResponse outcome isResponse.symm
  | false =>
    refine ⟨_, edge_stalls sound holds rst stage taken, fun _ => ?_, nofun⟩
    rw [pins_of_answer ((after_stage b h b.core b.stage).trans stage)]
    exact ⟨rfl, rfl, rfl⟩

/-- A host that, while `offer` stands, never resets, always takes a response and keeps each offer it makes. -/
structure PatientHost (offer : Option CmdWord) (hs : List HostPins) : Prop where
  patient : ∀ p ∈ hs, p.rst = false ∧ p.rspReady = true
  keepsStanding : ∀ w, offer = some w → ∀ p ∈ hs, p.cmdValid = true ∧ p.cmdWord = w
  keepsOwn : hs.Pairwise fun p q => p.cmdValid = true → q.cmdValid = true ∧ q.cmdWord = p.cmdWord

section
variable {offer : Option CmdWord} {p : HostPins} {hs : List HostPins} (host : PatientHost offer (p :: hs))
include host

theorem PatientHost.rst_eq : p.rst = false := (host.patient p List.mem_cons_self).1

theorem PatientHost.rspReady_eq : p.rspReady = true := (host.patient p List.mem_cons_self).2

theorem PatientHost.hostHolds_head : hostHolds offer p = true :=
  (hostHolds_working offer host.rst_eq).mpr fun w stands => host.keepsStanding w stands p List.mem_cons_self

/-- What stands after an edge is what the host offered at it, which it keeps. -/
theorem PatientHost.tail (b : Block) : PatientHost (b.standingOffer p) hs := by
  obtain ⟨keepsHead, keepsOwn⟩ := List.pairwise_cons.mp host.keepsOwn
  refine ⟨fun q mem => host.patient q (List.mem_cons_of_mem p mem), fun w stands q mem => ?_, keepsOwn⟩
  obtain ⟨⟨-, cmdValid, -⟩, rfl⟩ := (standingOffer_eq_some_iff b p w).mp stands
  exact keepsHead q mem cmdValid

end

theorem runEdges_cons {b b' : Block} {h : HostPins} (e : b.edge h = .next b') (hs : List HostPins) :
    b.runEdges (h :: hs) = b'.runEdges hs := by
  simp [Block.runEdges, e]

/-- A command with `left` edges before its last finishes at the edge after them, by induction on `left`. -/
theorem runEdges_finishes {w : CmdWord} {after : State} {response : Option Word} {left : Nat} {hs : List HostPins}
    {b : Block} (sound : b.core.flt = none) (stage : b.stage = .working w after response left)
    (host : PatientHost b.offer hs) (enough : left < hs.length) :
    ∃ b', b.runEdges (hs.take (left + 1)) = .next b' ∧ b'.core = after ∧ b'.stage = .ready := by
  induction left generalizing b hs with
  | zero =>
    match hs with
    | p :: hs =>
      have e := edge_finishes sound host.hostHolds_head host.rst_eq stage host.rspReady_eq
      exact ⟨_, runEdges_cons e _, rfl, rfl⟩
  | succ left ih =>
    match hs with
    | p :: hs =>
      have e := edge_computes sound host.hostHolds_head host.rst_eq stage
      rw [List.take_succ_cons, runEdges_cons e]
      exact ih sound rfl (host.tail b) (Nat.lt_of_succ_lt_succ enough)

/-- After acceptance the word is in the block and no longer on offer. -/
theorem edge_accepts_offer {b : Block} {h : HostPins} {after : State} (sound : b.core.flt = none)
    (holds : hostHolds b.offer h = true) (rst : h.rst = false) (stage : b.stage = .ready) (cmdValid : h.cmdValid = true)
    (outcome : b.core.extend (.command h.cmdWord) = .next after) :
    ∃ b', b.edge h = .next b' ∧ b'.core = b.core ∧ b'.stage = .working h.cmdWord after (newResponse b.core after)
      (Config.latCmd b.core.inst b.edges h.cmdWord - 1) ∧ b'.offer = none := by
  have e := edge_accepts sound holds rst stage cmdValid outcome
  exact ⟨_, e, rfl, rfl, offer_eq_none_of_edge e (.inr (.inr ((cmdReady_iff b false).mpr ⟨rfl, stage⟩)))⟩

/-- Settles O50: acceptance leaves fewer than `LAT_MAX` edges before the command's last. -/
theorem acceptedCommandFinishes : Obligations.AcceptedCommandFinishes := by
  intro b h hs after sound stage rst cmdValid holds outcome length patient keepsOwn
  have latency := latCmd_sub_one_lt_latMax b.core.inst b.edges h.cmdWord
  have host : PatientHost none hs := ⟨patient, nofun, keepsOwn⟩
  obtain ⟨busy, e, core, working, noOffer⟩ := edge_accepts_offer sound holds rst stage cmdValid outcome
  rw [← core] at sound
  rw [← noOffer] at host
  obtain ⟨done, run, result⟩ := runEdges_finishes sound working host (latency.trans_eq length.symm)
  exact ⟨_, done, latency, (runEdges_cons e _).trans run, result⟩

end Sys2Proof.Machine
end

section
/-! Hexadecimal digits read back: listings (30_encoding.md R81) and pattern literals (R80 (b)). -/

namespace Sys2Proof.Machine

/-- The values of the hexadecimal digits `hexDigits` writes. -/
def hexValues (n : Nat) : Nat → List Nat
  | 0 => []
  | count + 1 => n / 16 ^ count % 16 :: hexValues n count

theorem hexDigit_hexChar : ∀ d < 16, hexDigit (hexChar d) = some d := by decide

@[simp] theorem length_hexDigits (n count : Nat) : (hexDigits n count).length = count := by
  induction count with
  | zero => rfl
  | succ count ih => simp [hexDigits, ih]

theorem mapM_hexDigit_hexDigits (n count : Nat) : (hexDigits n count).mapM hexDigit = some (hexValues n count) := by
  induction count with
  | zero => rfl
  | succ count ih =>
    have first := hexDigit_hexChar (n / 16 ^ count % 16) (Nat.mod_lt _ (by norm_num))
    simp [hexDigits, hexValues, first, ih]

/-- Reading digits after the number `acc` shifts it by their count. -/
theorem foldl_hexValues (n count acc : Nat) :
    (hexValues n count).foldl (fun n d => 16 * n + d) acc = acc * 16 ^ count + n % 16 ^ count := by
  induction count generalizing acc with
  | zero => simp [hexValues, Nat.mod_one]
  | succ count ih =>
    rw [hexValues, List.foldl_cons, ih, Nat.mod_pow_succ]
    ring

theorem ofDigits_hexValues {n count : Nat} (h : n < 16 ^ count) : ofDigits 16 (hexValues n count) = n := by
  rw [ofDigits, foldl_hexValues, zero_mul, zero_add, Nat.mod_eq_of_lt h]

/-- Settles O51: each half of a listing is the digits of its field. -/
theorem listingReadsBack : Obligations.ListingReadsBack := by
  intro w
  have op : ofDigits 16 (hexValues (opField w).toNat 2) = (opField w).toNat := ofDigits_hexValues (opField w).isLt
  have data : ofDigits 16 (hexValues (dataField w).toNat 16) = (dataField w).toNat :=
    ofDigits_hexValues (dataField w).isLt
  have front : (listing w).take 2 = hexDigits (opField w).toNat 2 := List.take_left' (length_hexDigits _ _)
  have back : (listing w).drop 3 = hexDigits (dataField w).toNat 16 := rfl
  have shape : (listing w).length = 19 ∧ (listing w)[2]? = some '_' := ⟨by simp [listing], rfl⟩
  rw [readListing, if_pos shape, front, back, mapM_hexDigit_hexDigits, mapM_hexDigit_hexDigits]
  simp [op, data, commandWord_fields]

theorem hexLiteral_hexDigits (v : Word) : hexLiteral ('0' :: 'x' :: hexDigits v.toNat 16) = some v := by
  have value : ofDigits 16 (hexValues v.toNat 16) = v.toNat := ofDigits_hexValues v.isLt
  simp [hexLiteral, mapM_hexDigit_hexDigits, value]

end Sys2Proof.Machine
end

section
/-! A decimal literal is read part by part: sign, digits, fraction and exponent (30_encoding.md R80 (a)). -/

namespace Sys2Proof.Machine

/-! ### Digits and signs -/

theorem decDigit_hexChar : ∀ d < 10, decDigit (hexChar d) = some d := by decide

/-- The text does not begin with a decimal digit. -/
def NoDigitFirst : List Char → Prop
  | [] => True
  | c :: _ => decDigit c = none

theorem takeDigits_of_noDigitFirst {rest : List Char} (h : NoDigitFirst rest) : takeDigits rest = ([], rest) := by
  cases rest with
  | nil => rfl
  | cons c rest => rw [takeDigits, show decDigit c = none from h]

theorem takeDigits_digitText {ds : List Nat} {rest : List Char} (digits : ∀ d ∈ ds, d < 10) (h : NoDigitFirst rest) :
    takeDigits (digitText ds ++ rest) = (ds, rest) := by
  induction ds with
  | nil => exact takeDigits_of_noDigitFirst h
  | cons d ds ih =>
    obtain ⟨first, others⟩ := List.forall_mem_cons.mp digits
    have tail : takeDigits (ds.map hexChar ++ rest) = (ds, rest) := ih others
    simp [digitText, takeDigits, decDigit_hexChar d first, tail]

theorem takeSign_cons {c : Char} (rest : List Char) (minus : c ≠ '-') (plus : c ≠ '+') :
    takeSign (c :: rest) = (false, c :: rest) := by
  unfold takeSign
  split <;> simp_all

theorem hexChar_ne_of_decDigit {c : Char} (h : decDigit c = none) {d : Nat} (hd : d < 10) : hexChar d ≠ c := by
  rintro rfl
  simp [decDigit_hexChar d hd] at h

/-- A sign is told from the digits after it, of which there is at least one. -/
theorem takeSign_signText (sign : Option Bool) {ds : List Nat} (rest : List Char) (nonempty : ds ≠ [])
    (digits : ∀ d ∈ ds, d < 10) :
    takeSign (signText sign ++ (digitText ds ++ rest)) = (sign == some true, digitText ds ++ rest) := by
  match sign with
  | some true => rfl
  | some false => rfl
  | none =>
    obtain ⟨d, ds, rfl⟩ := List.exists_cons_of_ne_nil nonempty
    have first := digits d List.mem_cons_self
    exact takeSign_cons _ (hexChar_ne_of_decDigit rfl first) (hexChar_ne_of_decDigit rfl first)

/-! ### Fractions and exponents -/

/-- The fraction as it is written. -/
def fractionText (ds : List Nat) : List Char := if ds.isEmpty then [] else '.' :: digitText ds

/-- The exponent as it is written, if there is one. -/
def exponentText (e : Option ExponentText) : List Char := (e.map ExponentText.text).getD []

theorem decimalText_text (t : DecimalText) :
    t.text = signText t.sign ++ (digitText t.whole ++ (fractionText t.fraction ++ exponentText t.exponent)) := by
  simp [DecimalText.text, fractionText, exponentText]

theorem decimalText_wellFormed_iff (t : DecimalText) : t.wellFormed = true ↔
    t.whole ≠ [] ∧ (∀ d ∈ t.whole, d < 10) ∧ (∀ d ∈ t.fraction, d < 10) ∧
      ∀ e, t.exponent = some e → e.digits ≠ [] ∧ ∀ d ∈ e.digits, d < 10 := by
  simp [DecimalText.wellFormed, Option.all_eq_true, and_assoc]

theorem noDigitFirst_exponentText (e : Option ExponentText) : NoDigitFirst (exponentText e) := by
  match e with
  | none => trivial
  | some ⟨upper, _, _⟩ => cases upper <;> exact rfl

theorem noDigitFirst_fractionText (ds : List Nat) {rest : List Char} (h : NoDigitFirst rest) :
    NoDigitFirst (fractionText ds ++ rest) := by
  cases ds with
  | nil => exact h
  | cons d ds => exact rfl

theorem takeFraction_exponentText (e : Option ExponentText) :
    takeFraction (exponentText e) = some ([], exponentText e) := by
  match e with
  | none => rfl
  | some ⟨upper, _, _⟩ => cases upper <;> rfl

theorem takeFraction_fractionText {ds : List Nat} (digits : ∀ d ∈ ds, d < 10) (e : Option ExponentText) :
    takeFraction (fractionText ds ++ exponentText e) = some (ds, exponentText e) := by
  cases ds with
  | nil => exact takeFraction_exponentText e
  | cons d ds =>
    have taken := takeDigits_digitText digits (noDigitFirst_exponentText e)
    simp [fractionText, takeFraction, taken]

theorem takeExponent_exponentText {e : Option ExponentText}
    (wf : ∀ x, e = some x → x.digits ≠ [] ∧ ∀ d ∈ x.digits, d < 10) :
    takeExponent (exponentText e) = some ((e.map ExponentText.number).getD 0) := by
  match e with
  | none => rfl
  | some ⟨upper, sign, ds⟩ =>
    obtain ⟨nonempty, digits⟩ := wf _ rfl
    have signTaken := takeSign_signText sign [] nonempty digits
    have digitsTaken : takeDigits (digitText ds ++ []) = (ds, []) := takeDigits_digitText digits trivial
    rw [List.append_nil] at signTaken digitsTaken
    simp [exponentText, ExponentText.text, ExponentText.number, takeExponent, signTaken, digitsTaken, nonempty]

/-! ### The whole literal -/

theorem decimalLiteral_text {t : DecimalText} (wf : t.wellFormed = true) :
    decimalLiteral t.text = some (decimalValue (t.sign == some true) t.mantissa t.scale) := by
  obtain ⟨nonempty, whole, fraction, exponent⟩ := (decimalText_wellFormed_iff t).mp wf
  have signTaken := takeSign_signText t.sign (fractionText t.fraction ++ exponentText t.exponent) nonempty whole
  have wholeTaken := takeDigits_digitText whole (noDigitFirst_fractionText t.fraction
    (noDigitFirst_exponentText t.exponent))
  simp [decimalLiteral, decimalText_text, signTaken, wholeTaken, nonempty, takeFraction_fractionText fraction,
    takeExponent_exponentText exponent, DecimalText.mantissa, DecimalText.scale]

theorem not_mem_digitText {c : Char} (noDigit : decDigit c = none) {ds : List Nat} (digits : ∀ d ∈ ds, d < 10) :
    c ∉ digitText ds := by
  rw [digitText, List.mem_map]
  rintro ⟨d, mem, eq⟩
  exact hexChar_ne_of_decDigit noDigit (digits d mem) eq

theorem not_mem_signText {c : Char} (other : c ∉ ['+', '-']) (sign : Option Bool) : c ∉ signText sign := by
  match sign with
  | none => exact List.not_mem_nil
  | some true | some false => simp_all [signText]

/-- A decimal literal is written with digits, signs, the point and the exponent's letter alone. -/
theorem not_mem_text {t : DecimalText} (wf : t.wellFormed = true) {c : Char} (noDigit : decDigit c = none)
    (other : c ∉ ['+', '-', '.', 'e', 'E']) : c ∉ t.text := by
  obtain ⟨-, whole, fraction, exponent⟩ := (decimalText_wellFormed_iff t).mp wf
  have noSign (sign : Option Bool) : c ∉ signText sign := not_mem_signText (by simp_all) sign
  rw [decimalText_text, List.mem_append, List.mem_append, List.mem_append]
  rintro (sign | digit | point | letter)
  · exact noSign _ sign
  · exact not_mem_digitText noDigit whole digit
  · unfold fractionText at point
    split at point
    · cases point
    · rcases List.mem_cons.mp point with rfl | digit
      · simp at other
      · exact not_mem_digitText noDigit fraction digit
  · cases e : t.exponent with
    | none => simp [exponentText, e] at letter
    | some x =>
      have digits := not_mem_digitText noDigit (exponent x e).2
      cases upper : x.upper <;> simp_all [exponentText, ExponentText.text]

/-- Without the letters of `0x` and `inf` an operand is a decimal literal. -/
theorem operandLiteral_eq_decimalLiteral {text : List Char} (noX : 'x' ∉ text) (noN : 'n' ∉ text) :
    operandLiteral text = decimalLiteral text := by
  have notInf : text ≠ "inf".toList := by rintro rfl; exact noN (by decide)
  have notNegInf : text ≠ "-inf".toList := by rintro rfl; exact noN (by decide)
  have notHex : hexLiteral text = none := by
    unfold hexLiteral
    split
    · simp at noX
    · rfl
  rw [operandLiteral, if_neg notInf, if_neg notNegInf, notHex]
  rfl

theorem operandLiteral_text {t : DecimalText} (wf : t.wellFormed = true) :
    operandLiteral t.text = some (decimalValue (t.sign == some true) t.mantissa t.scale) := by
  rw [operandLiteral_eq_decimalLiteral (not_mem_text wf (by decide) (by decide))
    (not_mem_text wf (by decide) (by decide)), decimalLiteral_text wf]

theorem operandLiteral_hexDigits (v : Word) : operandLiteral ('0' :: 'x' :: hexDigits v.toNat 16) = some v := by
  simp [operandLiteral, hexLiteral_hexDigits]

/-! ### The value (R11, R80) -/

theorem roundMag_zero (den : Nat) : roundMag 0 den = 0 := by
  simp [roundMag, roundShift, nearestEven]

theorem decimalValue_zero (neg : Bool) (e : Int) : decimalValue neg 0 e = zeroOf neg := by
  simp [decimalValue, roundMag_zero, zeroOf]

/-- The exact value of a decimal literal is a quotient of whole numbers of units, which `roundMag` rounds. -/
theorem decimalValue_rounds (neg : Bool) (m : Nat) (e : Int) :
    RoundsTo (decimalValue neg m e) (signFactor neg * (m * (10 : ℚ) ^ e)) := by
  have units := unitsPerOne_pos.ne'
  rw [decimalValue]
  split
  next nonneg =>
    have exact : (m : ℚ) * 10 ^ e = ((m * 10 ^ e.toNat * unitsPerOne : ℕ) / (1 : ℕ) : ℚ) / unitsPerOne := by
      rw [Nat.cast_one, div_one, Nat.cast_mul, mul_div_cancel_right₀ _ units]
      push_cast
      rw [← zpow_natCast, Int.toNat_of_nonneg nonneg]
    rw [exact]
    exact roundsTo_roundMag neg _ 1 one_pos
  next negative =>
    have exact : (m : ℚ) * 10 ^ e = ((m * unitsPerOne : ℕ) / (10 ^ (-e).toNat : ℕ) : ℚ) / unitsPerOne := by
      rw [Nat.cast_mul, mul_div_right_comm, mul_div_cancel_right₀ _ units]
      push_cast
      rw [← zpow_natCast, Int.toNat_of_nonneg (by omega), zpow_neg, div_inv_eq_mul]
    rw [exact]
    exact roundsTo_roundMag neg _ _ (by positivity)

/-- Settles O53. -/
theorem literalsGiveTheirValues : Obligations.LiteralsGiveTheirValues := by
  refine ⟨operandLiteral_hexDigits, fun _ => operandLiteral_text, decimalValue_zero,
    fun neg m e _ => decimalValue_rounds neg m e, ?_, ?_, ?_⟩
  · exact (operandLiteral_text (t := ⟨some true, [0], [0], none⟩) rfl).trans (congrArg some (decimalValue_zero true _))
  · rfl
  · rfl

end Sys2Proof.Machine
end

section
/-! What assembly produces: canonical words and the listed expansions (30_encoding.md R82, R83). -/

namespace Sys2Proof.Machine

/-- An item an assembler may write: a reset, or the word of a command. -/
inductive AssembledItem : RunItem → Prop
  | reset : AssembledItem .reset
  | command (i : Instr) : AssembledItem (commandItem i)

theorem assembled_configItems (rate freq : Word) : ∀ item ∈ configItems rate freq, AssembledItem item := by
  simp [configItems, AssembledItem.command]

theorem assembled_procItems (n : Nat) : ∀ item ∈ procItems n, AssembledItem item := by
  intro item mem
  rw [List.eq_of_mem_replicate mem]
  exact .command .proc

theorem assembled_plainLine {m : List Char} {items : List RunItem} (h : plainLine m = some items) :
    ∀ item ∈ items, AssembledItem item := by
  unfold plainLine at h
  split_ifs at h <;> cases h <;> simp [AssembledItem.command, AssembledItem.reset]

theorem assembled_map {α : Type} {literal : Option α} {expand : α → List RunItem} {items : List RunItem}
    (h : literal.map expand = some items) (expands : ∀ x, ∀ item ∈ expand x, AssembledItem item) :
    ∀ item ∈ items, AssembledItem item := by
  obtain ⟨x, -, rfl⟩ := Option.map_eq_some_iff.mp h
  exact expands x

theorem assembled_operandLine {m x : List Char} {items : List RunItem} (h : operandLine m x = some items) :
    ∀ item ∈ items, AssembledItem item := by
  have single (i : Instr) : ∀ item ∈ [commandItem i], AssembledItem item := by simp [AssembledItem.command]
  unfold operandLine at h
  split_ifs at h
  · exact assembled_map h fun d => single (.setsr d)
  · exact assembled_map h fun d => single (.setf d)
  · exact assembled_map h fun d => single (.setph d)
  · exact assembled_map h fun d => single (.offph d)
  · exact assembled_map h fun rate => assembled_configItems rate _
  · exact assembled_map h assembled_procItems

theorem assembled_assembleLine {line : List Char} {items : List RunItem} (h : assembleLine line = some items) :
    ∀ item ∈ items, AssembledItem item := by
  unfold assembleLine at h
  split at h
  · cases h; exact nofun
  · exact assembled_plainLine h
  · exact assembled_operandLine h
  · split at h
    · simp only [Option.bind_eq_bind, Option.bind_eq_some_iff, Option.some.injEq] at h
      obtain ⟨rate, -, freq, -, rfl⟩ := h
      exact assembled_configItems rate freq
    · cases h
  · cases h

theorem assembled_assemble {lines : List (List Char)} {items : List RunItem} (h : assemble lines = some items) :
    ∀ item ∈ items, AssembledItem item := by
  induction lines generalizing items with
  | nil => cases h; exact nofun
  | cons line rest ih =>
    simp only [assemble, Option.bind_eq_bind, Option.bind_eq_some_iff, Option.some.injEq] at h
    obtain ⟨first, lineItems, more, restItems, rfl⟩ := h
    exact List.forall_mem_append.mpr ⟨assembled_assembleLine lineItems, ih restItems⟩

/-- Settles O52: every word an assembler writes is the encoding of a command. -/
theorem assembledWordsAreCanonical : Obligations.AssembledWordsAreCanonical := by
  intro lines items w h mem
  cases assembled_assemble h _ mem with
  | command i => exact canonicalWord_encode i

/-- Settles O54: each line is assembled. -/
theorem pseudoInstructionsExpand : Obligations.PseudoInstructionsExpand := by
  refine ⟨?_, ?_, ?_, ?_, ?_⟩ <;> decide +kernel

end Sys2Proof.Machine
end

section
/-! What a statement about one command starts from: the words that decode to it, whether it has its effect or raises its
guard's reason, and the value that goes on from an operation (30_encoding.md R66, R70, 60_exceptions.md R137, 00_scope.md
R18). -/

namespace Sys2Proof.Machine

/-! ### The words of a command -/

theorem decode_commandWord_of_operand {i : Instr} {data : Word} (h : operand i = some data) :
    decode (commandWord (opcode i) data) = .command i := by
  simpa [encode, h] using decode_encode i

/-- A command without an operand is the same command under any `DATA` (R70). -/
theorem decode_commandWord_of_no_operand {i : Instr} (h : operand i = none) (data : Word) :
    decode (commandWord (opcode i) data) = .command i := by
  have canonical : decode (commandWord (opcode i) 0#64) = .command i := by simpa [encode, h] using decode_encode i
  obtain ⟨j, dec, -, same, -⟩ := (dataNeverChangesTheCommand (opcode i) 0#64 data).2 i canonical
  rw [dec, same h]

/-! ### Effect or fault -/

section
variable {i : Instr} {s : State} {r : Reg} {reason : Fault}

theorem exec_of_unguarded (sound : s.flt = none) (unguarded : guardOf i = none) :
    exec i s = .next (effectOf i s).advance := by
  rw [exec_eq_command, unguarded, command_unguarded s _ sound]

theorem exec_of_readable (sound : s.flt = none) (guarded : guardOf i = some (r, reason))
    (readable : s.mayRead r = true) : exec i s = .next (effectOf i s).advance := by
  rw [exec_eq_command, guarded, command_readable s r reason _ sound readable]

theorem exec_of_unreadable (sound : s.flt = none) (guarded : guardOf i = some (r, reason))
    (unreadable : s.mayRead r = false) : exec i s = .next (s.raise reason) := by
  rw [exec_eq_command, guarded, command_unreadable s r reason _ sound unreadable]

end

/-! ### The value an operation gives -/

/-- What goes on from an operation is a value it may give; beside it only the number of draws made can change. -/
theorem withResult_gives (s : State) (r : FResult) (body : Word → State → State) :
    ∃ v n, r.Gives v ∧ s.withResult r body = body v { s with draws := n } := by
  rcases withResult_cases s r body with ⟨v, rfl, e⟩ | ⟨v, rfl, nan, e⟩
  · exact ⟨v, s.draws, rfl, e⟩
  · exact ⟨v, s.draws + 1, nan, e⟩

end Sys2Proof.Machine
end

section
/-! The configuration commands: NOP and SETSR always have their effect, SETF is guarded by SR (40_configuration.md R85 to
R87). -/

namespace Sys2Proof.Machine

/-- Settles O12: NOP has no operand, no guard and no effect. -/
theorem nopDoesNothing : Obligations.NopDoesNothing :=
  ⟨decode_commandWord_of_no_operand (i := .nop) rfl, fun _ sound => exec_of_unguarded sound rfl⟩

/-- Settles O13: SETSR has no guard, so its effect is what happens for every operand. -/
theorem setsrStoresTheRate : Obligations.SetsrStoresTheRate :=
  ⟨fun data => decode_commandWord_of_operand (i := .setsr data) rfl, fun _ _ sound => exec_of_unguarded sound rfl⟩

/-- R87: the effect of SETF, with DELTA a value the quotient gives. -/
theorem effectOf_setf_gives (freq : Word) (s : State) : ∃ d n, (fdiv freq s.sr).Gives d ∧ effectOf (.setf freq) s =
    { s with freq := freq, delta := d, wrFreq := true, wrDelta := true, draws := n } :=
  withResult_gives (s.writeReg .freq freq) (fdiv freq s.sr) fun d s =>
    ((s.writeReg .delta d).markWritten .freq).markWritten .delta

/-- Settles O14: SETF goes on where SR may be read, and raises its guard's reason where it may not. -/
theorem setfRecomputesDelta : Obligations.SetfRecomputesDelta := by
  refine ⟨fun data => decode_commandWord_of_operand (i := .setf data) rfl, fun s data sound => ⟨fun may => ?_, ?_⟩⟩
  · have readable : s.mayRead .sr = true := (mayRead_iff s .sr).mpr may
    obtain ⟨d, n, gives, effect⟩ := effectOf_setf_gives data s
    refine ⟨d, n, gives, ?_⟩
    rw [exec_of_readable sound rfl readable, effect]
    rfl
  · intro checked unwritten
    have unreadable : s.mayRead .sr = false := (mayRead_checked s .sr checked).trans unwritten
    exact exec_of_unreadable sound rfl unreadable

end Sys2Proof.Machine
end

section
/-! The phase commands: neither is guarded, and neither wraps (41_phase.md R95, R96). -/

namespace Sys2Proof.Machine

/-- Settles O15: SETPH has no guard, so its effect is what happens for every operand. -/
theorem setphOverwritesPhase : Obligations.SetphOverwritesPhase :=
  ⟨fun data => decode_commandWord_of_operand (i := .setph data) rfl, fun _ _ sound => exec_of_unguarded sound rfl⟩

/-- R96: the effect of OFFPH, with PHASE a value the sum gives. -/
theorem effectOf_offph_gives (offset : Word) (s : State) : ∃ p n, (fadd s.phase offset).Gives p ∧
    effectOf (.offph offset) s = { s with phase := p, draws := n } :=
  withResult_gives s (fadd s.phase offset) fun p s => s.writeReg .phase p

/-- The sum of R96's example, 1.325, is above 1.0, so the wrap of the next PROC subtracts. -/
theorem fadd_wrap_of_example : fadd 0x3FF3333333333333#64 0x3FC0000000000000#64 = .num 0x3FF5333333333333#64 ∧
    wrap 0x3FF5333333333333#64 = .num 0x3FD4CCCCCCCCCCCC#64 := by
  constructor <;> decide +kernel

/-- Settles O16: OFFPH has no guard, so its effect is what happens for every operand; the NaN cases are those of every
sum, and the finite ones are evaluated. -/
theorem offphAddsWithoutWrapping : Obligations.OffphAddsWithoutWrapping := by
  obtain ⟨-, -, -, infinities, -⟩ := sumIsCorrectlyRounded
  refine ⟨fun data => decode_commandWord_of_operand (i := .offph data) rfl, fun s data sound => ?_, ?rounded,
    ?zeroPlusNegZero, ?negZeros, fun _ _ nan => fadd_nan (.inr nan), fun neg => (infinities neg).1, ?absorbed, _,
    fadd_wrap_of_example⟩
  · obtain ⟨p, n, gives, effect⟩ := effectOf_offph_gives data s
    refine ⟨p, n, gives, ?_⟩
    rw [exec_of_unguarded sound rfl, effect]
    rfl
  case rounded => decide +kernel
  case zeroPlusNegZero => decide
  case negZeros => decide
  case absorbed => decide +kernel

end Sys2Proof.Machine
end

section
/-! Rounding keeps the order of the exact results and changes no magnitude that a pattern has (00_scope.md R14, R16, R17,
R21), and what this says of a rounded value beside the finite values. -/

namespace Sys2Proof.Machine

/-! ### Nearest patterns are in order -/

/-- Of two points the upper one is as near as the lower from halfway on. -/
theorem upper_near_iff {a b r : ℚ} (lt : a < b) : |b - r| ≤ |a - r| ↔ a + b ≤ 2 * r := by
  rw [← sq_le_sq]
  constructor <;> intro h <;> nlinarith

/-- The lower one is as near as the upper up to halfway. -/
theorem lower_near_iff {a b r : ℚ} (lt : a < b) : |a - r| ≤ |b - r| ↔ 2 * r ≤ a + b := by
  rw [← sq_le_sq]
  constructor <;> intro h <;> nlinarith

/-- Of two numbers the lower has the lower nearest pattern: patterns that tie are neighbours, and one of them is odd. -/
theorem NearestPattern.mono {p q : Nat} {r r' : ℚ} (hp : NearestPattern p r) (hq : NearestPattern q r') (le : r ≤ r') :
    p ≤ q := by
  by_contra lt
  rw [not_le] at lt
  have below := patternMagnitude_cast_lt lt
  have past := (upper_near_iff below).mp (hp.nearest q)
  have before := (lower_near_iff below).mp (hq.nearest p)
  obtain rfl : r = r' := by linarith
  have tie := le_antisymm (hq.nearest p) (hp.nearest q)
  have even_p := hp.tie q lt.ne tie
  have even_q := hq.tie p lt.ne' tie.symm
  have between := patternMagnitude_cast_lt (Nat.lt_succ_self q)
  have near := (upper_near_iff (patternMagnitude_cast_lt (show q + 1 < p by omega))).mp (hp.nearest (q + 1))
  linarith

/-- A pattern is the nearest to its own magnitude. -/
theorem nearestPattern_self (p : Nat) : NearestPattern p (patternMagnitude p) := by
  have lt := patternMagnitude_cast_lt (Nat.lt_succ_self p)
  exact nearestPattern_lower le_rfl (by linarith) fun tie => by linarith

theorem NearestPattern.uncappedRound_eq {p num den : Nat} (pos : 0 < den) (near : NearestPattern p ((num : ℚ) / den)) :
    uncappedRound num den = p :=
  have rounded := uncappedRound_nearest num den pos
  le_antisymm (rounded.mono near le_rfl) (near.mono rounded le_rfl)

theorem NearestPattern.roundMag_eq {p n : Nat} (near : NearestPattern p n) (le : p ≤ 0x7FF0000000000000) :
    roundMag n 1 = p := by
  rw [roundMag_eq_min, NearestPattern.uncappedRound_eq one_pos (by simpa using near), min_eq_left le]

theorem roundMag_patternMagnitude {p : Nat} (le : p ≤ 0x7FF0000000000000) : roundMag (patternMagnitude p) 1 = p :=
  (nearestPattern_self p).roundMag_eq le

theorem roundMag_mono {n m den : Nat} (pos : 0 < den) (le : n ≤ m) : roundMag n den ≤ roundMag m den := by
  rw [roundMag_eq_min, roundMag_eq_min]
  have posQ : (0 : ℚ) < den := by exact_mod_cast pos
  have le' : (n : ℚ) / den ≤ m / den := by gcongr
  exact min_le_min_right _ ((uncappedRound_nearest n den pos).mono (uncappedRound_nearest m den pos) le')

/-! ### Patterns and their signed magnitudes -/

theorem value_le_iff (a b : Word) : value a ≤ value b ↔ scaled a ≤ scaled b := by
  rw [← not_lt, value_lt_iff, not_lt]

theorem abs_value (v : Word) : |value v| = magnitude v / unitsPerOne := by
  rw [value_eq, abs_signFactor_mul, abs_of_nonneg (div_nonneg (Nat.cast_nonneg _) unitsPerOne_pos.le)]

theorem scaled_zero : scaled 0x0000000000000000#64 = 0 := by decide

theorem scaled_fOne : scaled fOne = unitsPerOne := by decide +kernel

theorem value_zero : value 0x0000000000000000#64 = 0 := by rw [value, scaled_zero, Int.cast_zero, zero_div]

theorem value_fOne : value fOne = 1 := by
  rw [value, scaled_fOne, Int.cast_natCast, div_self unitsPerOne_pos.ne']

theorem value_fTwo : value fTwo = 2 := by
  have h : scaled fTwo = scaled fOne + scaled fOne := by decide +kernel
  rw [value, h, Int.cast_add, add_div, ← value, value_fOne]
  norm_num

/-- The finite patterns are those whose signed magnitude the infinities enclose. -/
theorem isFinite_iff_abs_scaled (v : Word) : isFinite v = true ↔ |scaled v| < scaled (infOf false) := by
  rw [abs_scaled, magnitude_eq, isFinite_iff, ← patternMagnitude_strictMono.lt_iff_lt, infOf,
    scaled_withSign _ _ (by norm_num), if_neg Bool.false_ne_true, one_mul, Int.ofNat_lt]

theorem isFinite_of_scaled_between {v a b : Word} (ha : isFinite a = true) (hb : isFinite b = true)
    (lo : scaled a ≤ scaled v) (hi : scaled v ≤ scaled b) : isFinite v = true := by
  rw [isFinite_iff_abs_scaled, abs_lt] at *
  exact ⟨ha.1.trans_le lo, hi.trans_lt hb.2⟩

/-! ### Finite values in [0, 1] -/

theorem inUnit_iff_scaled (v : Word) : inUnit v ↔ 0 ≤ scaled v ∧ scaled v ≤ scaled fOne := by
  rw [inUnit, ← value_zero, ← value_fOne, value_le_iff, value_le_iff, scaled_zero]
  refine ⟨And.right, fun h => ⟨?_, h⟩⟩
  exact isFinite_of_scaled_between (a := 0x0000000000000000#64) (b := fOne) (by decide) (by decide) h.1 h.2

theorem inUnit_zero : inUnit (zeroOf false) := by rw [inUnit_iff_scaled]; decide +kernel

/-! ### A rounded value beside the finite values -/

theorem abs_value_lt_overflowBound {w : Word} (fin : isFinite w = true) : |value w| < overflowBound := by
  have le : (magnitude w : ℚ) ≤ patternMagnitude 0x7FEFFFFFFFFFFFFF := by
    rw [magnitude_eq]
    exact patternMagnitude_cast_le (Nat.le_of_lt_succ ((isFinite_iff w).mp fin))
  have lt := patternMagnitude_cast_lt (show 0x7FEFFFFFFFFFFFFF < 0x7FF0000000000000 by norm_num)
  have half := overflowBound_halfway
  rw [abs_value, div_lt_iff₀ unitsPerOne_pos]
  linarith

section
variable {v w : Word} {x : ℚ}

/-- A number not above a finite value does not round above it. -/
theorem RoundsTo.scaled_le (h : RoundsTo v x) (fin : isFinite w = true) (le : x ≤ value w) : scaled v ≤ scaled w := by
  rcases lt_or_ge |x| overflowBound with small | large
  · have near := (le_abs_self _).trans ((h.1 small).nearest w fin)
    rw [abs_of_nonneg (sub_nonneg.mpr le)] at near
    exact (value_le_iff v w).mp (by linarith)
  · have bound := abs_lt.mp (abs_value_lt_overflowBound fin)
    have neg : x < 0 := by
      by_contra nonneg
      rw [abs_of_nonneg (not_lt.mp nonneg)] at large
      linarith [bound.2]
    rw [h.2 large, decide_eq_true neg, scaled_negInf]
    exact (abs_lt.mp (abs_scaled_lt_inf fin)).1.le

/-- A number not below a finite value does not round below it. -/
theorem RoundsTo.le_scaled (h : RoundsTo v x) (fin : isFinite w = true) (le : value w ≤ x) : scaled w ≤ scaled v := by
  rcases lt_or_ge |x| overflowBound with small | large
  · have near := (neg_le_abs _).trans ((h.1 small).nearest w fin)
    rw [abs_of_nonpos (sub_nonpos.mpr le)] at near
    exact (value_le_iff w v).mp (by linarith)
  · have bound := abs_lt.mp (abs_value_lt_overflowBound fin)
    have nonneg : ¬ x < 0 := by
      intro neg
      rw [abs_of_neg neg] at large
      linarith [bound.1]
    rw [h.2 large, decide_eq_false nonneg]
    exact (abs_lt.mp (abs_scaled_lt_inf fin)).2.le

/-- A number in [0, 1] rounds into [0, 1]. -/
theorem RoundsTo.inUnit (h : RoundsTo v x) (nonneg : 0 ≤ x) (le_one : x ≤ 1) : inUnit v := by
  rw [inUnit_iff_scaled, ← scaled_zero]
  exact ⟨h.le_scaled (by decide) (value_zero.trans_le nonneg), h.scaled_le (by decide) (le_one.trans_eq value_fOne.symm)⟩

end

/-- Either zero is a rounded 0. -/
theorem roundsTo_zeroOf (neg : Bool) : RoundsTo (zeroOf neg) 0 where
  left _ := {
    finite := by cases neg <;> decide
    nearest := fun w _ => by simp [value_zeroOf]
    tie := fun w _ ne tie => absurd tie (by simpa [value_zeroOf] using ne) }
  right above := absurd above (by norm_num [overflowBound])

/-- R14: the sum of finite values is rounded, a zero sum included. -/
theorem fadd_roundsTo {a b : Word} (ha : isFinite a = true) (hb : isFinite b = true) :
    ∃ v, fadd a b = .num v ∧ RoundsTo v (value a + value b) := by
  by_cases zero : scaled a + scaled b = 0
  · rw [fadd_of_finite ha hb, if_pos zero, value_add, zero, Int.cast_zero, zero_div]
    exact ⟨_, rfl, roundsTo_zeroOf _⟩
  · refine fadd_rounds ha hb ?_
    rw [value_add]
    exact div_ne_zero (Int.cast_ne_zero.mpr zero) unitsPerOne_pos.ne'

end Sys2Proof.Machine
end

section
/-! Adding 1.0 to a phase and the wrap's one subtraction of 1.0, on patterns: exact while the spacing of the values is at
most 1, absorbed where it is 4 or more, and tied to the even pattern where it is 2 (42_process.md R106, R118). -/

namespace Sys2Proof.Machine

/-! ### The spacing of the magnitudes -/

/-- The exponent and the significand of a pattern from the lowest normal one on. -/
theorem exists_significand {p : Nat} (normal : 2 ^ 52 ≤ p) :
    ∃ m, p = (p / 2 ^ 52 - 1) * 2 ^ 52 + m ∧ 2 ^ 52 ≤ m ∧ m < 2 ^ 53 :=
  ⟨2 ^ 52 + p % 2 ^ 52, by omega, by omega, by omega⟩

/-- The distance from a pattern's magnitude to the next: the unit for the subnormals and the lowest normal binade, and
doubling with each binade from there. -/
theorem patternMagnitude_succ_eq (p : Nat) : patternMagnitude (p + 1) = patternMagnitude p + 2 ^ (p / 2 ^ 52 - 1) := by
  rcases Nat.lt_or_ge p (2 ^ 52) with sub | normal
  · have magnitude_eq_self (q : Nat) (h : q ≤ 2 ^ 53) : patternMagnitude q = q := by
      simpa using patternMagnitude_assembled q 0 (.inl rfl) h
    rw [magnitude_eq_self p (by omega), magnitude_eq_self (p + 1) (by omega), show p / 2 ^ 52 - 1 = 0 by omega, pow_zero]
  · obtain ⟨m, split, lo, hi⟩ := exists_significand normal
    generalize p / 2 ^ 52 - 1 = e at split ⊢
    rw [split, add_assoc, patternMagnitude_assembled (m + 1) e (.inr (by omega)) hi,
      patternMagnitude_assembled m e (.inr lo) hi.le]
    ring

/-- Every multiple of a power of two with at most 53 significant bits is the magnitude of a pattern. -/
theorem exists_patternMagnitude_eq (e : Nat) : ∀ m ≤ 2 ^ 53, ∃ p, patternMagnitude p = m * 2 ^ e := by
  induction e with
  | zero => exact fun m hm => ⟨_, patternMagnitude_assembled m 0 (.inl rfl) hm⟩
  | succ e ih =>
    intro m hm
    by_cases normal : 2 ^ 52 ≤ m
    · exact ⟨_, patternMagnitude_assembled m (e + 1) (.inr normal) hm⟩
    · obtain ⟨p, hp⟩ := ih (2 * m) (by omega)
      exact ⟨p, by rw [hp]; ring⟩

theorem unitsPerOne_eq_pow : unitsPerOne = 2 ^ 1074 := by unfold unitsPerOne; rfl

/-- From 2^(n + 52) on, values are at least 2^n apart. -/
theorem patternMagnitude_add_le_succ {p : Nat} (n : Nat) (le : (n + 1075) * 2 ^ 52 ≤ p) :
    patternMagnitude p + 2 ^ n * unitsPerOne ≤ patternMagnitude (p + 1) := by
  have exp : n + 1075 ≤ p / 2 ^ 52 := (Nat.le_div_iff_mul_le (by norm_num)).mpr le
  rw [patternMagnitude_succ_eq, unitsPerOne_eq_pow, ← pow_add]
  exact Nat.add_le_add_left (Nat.pow_le_pow_right two_pos (Nat.le_sub_one_of_lt exp)) _

/-! ### Subtracting and adding 1.0 to a magnitude

The patterns of 1, 2^53 and 2^54 are 0x3FF0000000000000, 0x4340000000000000 and 0x4350000000000000. -/

/-- Up to 2^53, a value above 1 less 1 is a value: it has no bit below the spacing of the value it comes from. -/
theorem exists_patternMagnitude_sub_one {p : Nat} (lo : 0x3FF0000000000000 ≤ p) (hi : p ≤ 0x4340000000000000) :
    ∃ q, patternMagnitude q + unitsPerOne = patternMagnitude p := by
  rcases hi.lt_or_eq with lt | rfl
  · obtain ⟨m, split, mlo, mhi⟩ := exists_significand (show 2 ^ 52 ≤ p by omega)
    have exp : 1022 ≤ p / 2 ^ 52 - 1 ∧ p / 2 ^ 52 - 1 ≤ 1074 := by omega
    generalize p / 2 ^ 52 - 1 = e at split exp
    have units : unitsPerOne = 2 ^ (1074 - e) * 2 ^ e := by
      rw [unitsPerOne_eq_pow, ← pow_add, Nat.sub_add_cancel exp.2]
    have fits : 2 ^ (1074 - e) ≤ m := (Nat.pow_le_pow_right (by norm_num) (show 1074 - e ≤ 52 by omega)).trans mlo
    obtain ⟨q, hq⟩ := exists_patternMagnitude_eq e (m - 2 ^ (1074 - e)) ((Nat.sub_le _ _).trans mhi.le)
    refine ⟨q, ?_⟩
    rw [hq, units, split, patternMagnitude_normal m e mlo mhi, ← Nat.add_mul, Nat.sub_add_cancel fits]
  · exact ⟨0x433FFFFFFFFFFFFF, by decide +kernel⟩

section
variable {p s : Nat}

/-- Where values are 2 apart an even pattern, and where they are 4 apart every pattern, is the nearest to its value
plus 1. -/
theorem nearestPattern_add_one (lo : 0x4340000000000000 ≤ p) (even : p % 2 = 0 ∨ 0x4350000000000000 ≤ p) :
    NearestPattern p (patternMagnitude p + unitsPerOne : ℕ) := by
  have gap : (patternMagnitude p : ℚ) + 2 * unitsPerOne ≤ patternMagnitude (p + 1) := by
    exact_mod_cast patternMagnitude_add_le_succ 1 lo
  have units := unitsPerOne_pos
  push_cast
  refine nearestPattern_lower (by linarith) (by linarith) fun tie => even.resolve_right fun large => ?_
  have wide : (patternMagnitude p : ℚ) + 4 * unitsPerOne ≤ patternMagnitude (p + 1) := by
    exact_mod_cast patternMagnitude_add_le_succ 2 large
  linarith

/-- The same for the value minus 1, by the spacing below it. -/
theorem nearestPattern_sub_one (lo : 0x4340000000000000 < p) (even : p % 2 = 0 ∨ 0x4350000000000000 < p) :
    NearestPattern p (patternMagnitude p - unitsPerOne : ℕ) := by
  obtain ⟨q, rfl⟩ : ∃ q, p = q + 1 := ⟨p - 1, by omega⟩
  have gapNat := patternMagnitude_add_le_succ 1 (Nat.le_of_lt_succ lo)
  have gap : (patternMagnitude q : ℚ) + 2 * unitsPerOne ≤ patternMagnitude (q + 1) := by exact_mod_cast gapNat
  have units := unitsPerOne_pos
  rw [Nat.cast_sub (by omega)]
  refine nearestPattern_upper (by linarith) (by linarith) fun tie => even.resolve_right fun large => ?_
  have wide : (patternMagnitude q : ℚ) + 4 * unitsPerOne ≤ patternMagnitude (q + 1) := by
    exact_mod_cast patternMagnitude_add_le_succ 2 (Nat.le_of_lt_succ large)
  linarith

/-- A value plus 1 that rounds above 2^53 and up to 2^54 rounds to an even pattern: it lies halfway between two. -/
theorem even_of_nearestPattern_add_one (near : NearestPattern s (patternMagnitude p + unitsPerOne : ℕ))
    (lo : 0x4340000000000000 < s) (hi : s ≤ 0x4350000000000000) : s % 2 = 0 := by
  rcases hi.eq_or_lt with rfl | lt
  · norm_num
  obtain ⟨r, rfl⟩ : ∃ r, s = r + 2 := ⟨s - 2, by omega⟩
  have units : 2 ^ 1075 = 2 * unitsPerOne := by rw [unitsPerOne_eq_pow, ← pow_succ']
  have below : (patternMagnitude r : ℚ) + unitsPerOne ≤ patternMagnitude (r + 1) := by
    have := patternMagnitude_add_le_succ (p := r) 0 (by omega)
    rw [pow_zero, one_mul] at this
    exact_mod_cast this
  have gap : (patternMagnitude (r + 2) : ℚ) = patternMagnitude (r + 1) + 2 * unitsPerOne := by
    rw [patternMagnitude_succ_eq, show (r + 1) / 2 ^ 52 - 1 = 1075 by omega, units]
    push_cast
    rfl
  have gap' : (patternMagnitude (r + 3) : ℚ) = patternMagnitude (r + 2) + 2 * unitsPerOne := by
    rw [patternMagnitude_succ_eq, show (r + 2) / 2 ^ 52 - 1 = 1075 by omega, units]
    push_cast
    rfl
  have pos := unitsPerOne_pos
  rw [Nat.cast_add] at near
  have neighbour : p = r + 1 ∨ p = r + 2 := by
    by_contra other
    rcases (show p ≤ r ∨ r + 3 ≤ p by omega) with small | large
    · have le := patternMagnitude_cast_le small
      have := near.mono (nearestPattern_self (r + 1)) (by linarith)
      omega
    · have le := patternMagnitude_cast_le large
      have := (nearestPattern_self (r + 3)).mono near (by linarith)
      omega
  rcases neighbour with rfl | rfl
  · refine near.tie (r + 1) (by omega) ?_
    rw [gap, abs_eq_abs]
    exact .inr (by ring)
  · refine near.tie (r + 3) (by omega) ?_
    rw [gap', abs_eq_abs]
    exact .inr (by ring)

end

end Sys2Proof.Machine
end

section
/-! The wrap (42_process.md R106): what it does by the value of its argument, and a step of 1.0 through it (R118). -/

namespace Sys2Proof.Machine

/-! ### The two cases of the test, and the step of 1.0 -/

theorem wrap_of_not_fgt {s : Word} (test : fgt s fOne = false) : wrap s = .num s := by simp [wrap, test]

theorem fgt_of_scaled_le {a b : Word} (le : scaled a ≤ scaled b) : fgt a b = false := by simp [fgt, le]

theorem wrap_of_scaled_le {s : Word} (le : scaled s ≤ scaled fOne) : wrap s = .num s :=
  wrap_of_not_fgt (fgt_of_scaled_le le)

theorem wrap_of_isNaN {s : Word} (nan : isNaN s = true) : wrap s = .num s := wrap_of_not_fgt (fgt_nan (.inl nan))

theorem wrap_infOf (neg : Bool) : wrap (infOf neg) = .num (infOf neg) := by cases neg <;> decide +kernel

theorem scaled_fOne_pos : 0 < scaled fOne := by decide +kernel

theorem wrap_of_lt_scaled {s : Word} (fin : isFinite s = true) (gt : scaled fOne < scaled s) :
    wrap s = .num (withSign false (roundMag (magnitude s - unitsPerOne) 1)) := by
  have minusOne : scaled (fneg fOne) = -scaled fOne := by decide +kernel
  have mag := (abs_of_pos (scaled_fOne_pos.trans gt)).symm.trans (abs_scaled s)
  have test : fgt s fOne = true := by
    rw [fgt_of_not_isNaN (isNaN_of_isFinite fin) (by decide), decide_eq_true gt]
  have natAbs : (scaled s - scaled fOne).natAbs = magnitude s - unitsPerOne := by rw [scaled_fOne] at *; omega
  rw [wrap, if_pos test, fsub, fadd_of_finite fin (by decide), minusOne, ← sub_eq_add_neg, if_neg (by omega),
    decide_eq_false (by omega), natAbs]

theorem fadd_fOne {p : Word} (fin : isFinite p = true) (nonneg : 0 ≤ scaled p) :
    fadd p fOne = .num (withSign false (roundMag (magnitude p + unitsPerOne) 1)) := by
  have pos := scaled_fOne_pos
  have mag := (abs_of_nonneg nonneg).symm.trans (abs_scaled p)
  have natAbs : (scaled p + scaled fOne).natAbs = magnitude p + unitsPerOne := by rw [scaled_fOne] at *; omega
  rw [fadd_of_finite fin (by decide), if_neg (by omega), decide_eq_false (by omega), natAbs]

/-! ### On the patterns of positive values -/

theorem withSign_false_toNat (v : Word) : withSign false v.toNat = v :=
  BitVec.eq_of_toNat_eq (by simp [withSign])

section
variable {p q : Nat}

theorem scaled_withSign_false (fin : p < 0x7FF0000000000000) : scaled (withSign false p) = patternMagnitude p := by
  rw [scaled_withSign _ _ (by omega), if_neg Bool.false_ne_true, one_mul]

theorem magnitude_withSign_false (fin : p < 0x7FF0000000000000) :
    magnitude (withSign false p) = patternMagnitude p := magnitude_withSign _ _ (by omega)

theorem wrap_pattern (gt : 0x3FF0000000000000 < p) (fin : p < 0x7FF0000000000000) :
    wrap (withSign false p) = .num (withSign false (roundMag (patternMagnitude p - unitsPerOne) 1)) := by
  rw [wrap_of_lt_scaled (isFinite_withSign false fin), magnitude_withSign_false fin]
  rw [scaled_withSign_false fin, show fOne = withSign false 0x3FF0000000000000 from rfl,
    scaled_withSign_false (by norm_num)]
  exact_mod_cast patternMagnitude_strictMono gt

theorem fadd_fOne_pattern (fin : p < 0x7FF0000000000000) :
    fadd (withSign false p) fOne = .num (withSign false (roundMag (patternMagnitude p + unitsPerOne) 1)) := by
  rw [fadd_fOne (isFinite_withSign false fin) (by rw [scaled_withSign_false fin]; omega), magnitude_withSign_false fin]

/-- From 1 to 2^53 the wrap is exact, and a step of 1.0 undoes it. -/
theorem wrap_exact (gt : 0x3FF0000000000000 < p) (le : p ≤ 0x4340000000000000) :
    ∃ q < p, patternMagnitude q + unitsPerOne = patternMagnitude p ∧ wrap (withSign false p) = .num (withSign false q) ∧
      fadd (withSign false q) fOne = .num (withSign false p) := by
  obtain ⟨q, sub⟩ := exists_patternMagnitude_sub_one gt.le le
  have lt : q < p := by
    have pos : 0 < unitsPerOne := by exact_mod_cast unitsPerOne_pos
    rw [← patternMagnitude_strictMono.lt_iff_lt]
    omega
  refine ⟨q, lt, sub, ?_, ?_⟩
  · rw [wrap_pattern gt (by omega), ← sub, Nat.add_sub_cancel, roundMag_patternMagnitude (by omega)]
  · rw [fadd_fOne_pattern (by omega), sub, roundMag_patternMagnitude (by omega)]

/-- Above 2^53 the wrap leaves an even pattern, and above 2^54 every pattern, and so does a step of 1.0. -/
theorem wrap_absorbed (gt : 0x4340000000000000 < p) (even : p % 2 = 0 ∨ 0x4350000000000000 < p)
    (fin : p < 0x7FF0000000000000) : wrap (withSign false p) = .num (withSign false p) ∧
      fadd (withSign false p) fOne = .num (withSign false p) := by
  constructor
  · rw [wrap_pattern (by omega) fin, (nearestPattern_sub_one gt even).roundMag_eq fin.le]
  · rw [fadd_fOne_pattern fin, (nearestPattern_add_one gt.le (even.imp_right le_of_lt)).roundMag_eq fin.le]

end

/-! ### By the value of the sum -/

theorem toNat_lt_of_finite_pos {v : Word} (fin : isFinite v = true) (pos : 0 < scaled v) :
    v.toNat < 0x7FF0000000000000 := by
  have lt := (isFinite_iff v).mp fin
  rwa [Nat.mod_eq_of_lt (toNat_lt_of_scaled_pos v pos)] at lt

theorem one_lt_value_iff (s : Word) : 1 < value s ↔ scaled fOne < scaled s := by rw [← value_fOne, value_lt_iff]

/-- R106: the wrap of a sum in (1, 2] is exact. -/
theorem wrap_of_value_le_two {s : Word} (gt : 1 < value s) (le : value s ≤ 2) :
    ∃ p, wrap s = .num p ∧ value p = value s - 1 := by
  rw [one_lt_value_iff] at gt
  have pos := scaled_fOne_pos.trans gt
  have low : 0x3FF0000000000000 < s.toNat := (scaled_lt_iff fOne s scaled_fOne_pos pos).mp gt
  have high : s.toNat ≤ 0x4000000000000000 := by
    rw [← value_fTwo, ← not_lt, value_lt_iff, scaled_lt_iff _ _ (by decide +kernel) pos, not_lt] at le
    exact le
  obtain ⟨q, lt, sub, wrapped, -⟩ := wrap_exact low (by omega)
  rw [withSign_false_toNat] at wrapped
  refine ⟨_, wrapped, ?_⟩
  rw [← value_fOne, eq_sub_iff_add_eq, value_add, value, scaled_withSign_false (by omega), scaled_fOne,
    scaled_of_pos s pos, ← sub]
  push_cast
  rfl

theorem value_two_pow_54 : value 0x4350000000000000#64 = 2 ^ 54 := by
  have units : scaled 0x4350000000000000#64 = 2 ^ 54 * scaled fOne := by decide +kernel
  rw [value, units, Int.cast_mul, mul_div_assoc, ← value, value_fOne]
  norm_num

/-- R106: from 2^54 on the wrap is absorbed. -/
theorem wrap_of_le_value {s : Word} (fin : isFinite s = true) (ge : 2 ^ 54 ≤ value s) : wrap s = .num s := by
  have start : 0 < scaled 0x4350000000000000#64 := by decide +kernel
  rw [← value_two_pow_54, value_le_iff] at ge
  have pos := start.trans_le ge
  rw [← not_lt, scaled_lt_iff _ _ pos start, not_lt] at ge
  have large : 0x4350000000000000 ≤ s.toNat := ge
  have absorbed := (wrap_absorbed (p := s.toNat) (by omega) (by omega) (toNat_lt_of_finite_pos fin pos)).1
  rwa [withSign_false_toNat] at absorbed

/-- Settles O27: the definition's two branches, and the exact and the absorbed subtraction. -/
theorem wrapIsOneConditionalSubtraction : Obligations.WrapIsOneConditionalSubtraction :=
  ⟨fun _ test => if_pos test, fun _ => wrap_of_not_fgt, fun _ _ => wrap_of_value_le_two, fun _ => wrap_of_le_value,
    wrap_infOf false⟩

/-! ### The fixed points of a step of 1.0 (R118) -/

/-- One step of 1.0 leaves `q` where it is. -/
def UnitStepFixes (q : Word) : Prop := ∃ s, fadd q fOne = .num s ∧ wrap s = .num q

theorem unitStepFixes_of_absorbed {p : Nat} (gt : 0x4340000000000000 < p)
    (even : p % 2 = 0 ∨ 0x4350000000000000 < p) (fin : p < 0x7FF0000000000000) : UnitStepFixes (withSign false p) :=
  ⟨_, (wrap_absorbed gt even fin).2, (wrap_absorbed gt even fin).1⟩

/-- A step of 1.0 from a magnitude rounded up to 2^54 ends at a fixed point: 1 itself, an exact difference, or an even
pattern that absorbs the step. -/
theorem wrap_unitStepFixes {p s : Nat} (near : NearestPattern s (patternMagnitude p + unitsPerOne : ℕ))
    (le : s ≤ 0x4350000000000000) : ∃ q, wrap (withSign false s) = .num q ∧ UnitStepFixes q := by
  have one : patternMagnitude 0x3FF0000000000000 = unitsPerOne := by decide +kernel
  have ge : 0x3FF0000000000000 ≤ s := (nearestPattern_self _).mono near (by rw [one]; push_cast; simp)
  rcases ge.lt_or_eq with gt | rfl
  · rcases Nat.lt_or_ge 0x4340000000000000 s with big | small
    · have even := even_of_nearestPattern_add_one near big le
      exact ⟨_, (wrap_absorbed big (.inl even) (by omega)).1, unitStepFixes_of_absorbed big (.inl even) (by omega)⟩
    · obtain ⟨q, -, -, wrapped, back⟩ := wrap_exact gt small
      exact ⟨_, wrapped, _, back, wrapped⟩
  · exact ⟨fOne, by decide +kernel, fTwo, by decide +kernel⟩

/-- A step of 1.0 from any finite value not below 0 ends at a fixed point. -/
theorem unitStep_reaches_fixed {p : Word} (fin : isFinite p = true) (nonneg : 0 ≤ scaled p) :
    ∃ s q, fadd p fOne = .num s ∧ wrap s = .num q ∧ UnitStepFixes q := by
  rw [fadd_fOne fin nonneg, magnitude_eq]
  have finite := (isFinite_iff p).mp fin
  generalize p.toNat % 2 ^ 63 = m at finite
  rcases Nat.lt_or_ge m 0x4350000000000000 with small | large
  · obtain ⟨s, near⟩ : ∃ s, NearestPattern s (patternMagnitude m + unitsPerOne : ℕ) :=
      ⟨_, by simpa using uncappedRound_nearest (patternMagnitude m + unitsPerOne) 1 one_pos⟩
    have le : s ≤ 0x4350000000000000 := by
      have below := patternMagnitude_cast_le (show m ≤ 0x434FFFFFFFFFFFFF by omega)
      have gap : (patternMagnitude 0x434FFFFFFFFFFFFF : ℚ) + unitsPerOne ≤ patternMagnitude 0x4350000000000000 := by
        exact_mod_cast show patternMagnitude 0x434FFFFFFFFFFFFF + unitsPerOne ≤ patternMagnitude 0x4350000000000000 by
          decide +kernel
      exact near.mono (nearestPattern_self _) (by push_cast; linarith)
    obtain ⟨q, wrapped, fixed⟩ := wrap_unitStepFixes near le
    exact ⟨_, q, rfl, by rwa [near.roundMag_eq (by omega)], fixed⟩
  · have even : m % 2 = 0 ∨ 0x4350000000000000 < m := by omega
    have near := nearestPattern_add_one (by omega) (even.imp_right le_of_lt)
    rw [near.roundMag_eq finite.le]
    exact ⟨_, _, rfl, (wrap_absorbed (by omega) even finite).1, unitStepFixes_of_absorbed (by omega) even finite⟩

end Sys2Proof.Machine
end

section
/-! The items a state has still to execute, one step on (10_state.md R38). -/

namespace Sys2Proof.Machine

theorem nextItem_of_rest {s : State} {item : RunItem} {rest : List RunItem} (h : s.rest = item :: rest) :
    s.nextItem = some item := by
  rw [State.nextItem, ← Nat.add_zero s.k, ← List.getElem?_drop, ← State.rest, h]
  rfl

theorem rest_of_nextItem {s : State} {item : RunItem} (h : s.nextItem = some item) :
    s.rest = item :: s.run.drop (s.k + 1) := by
  obtain ⟨lt, eq⟩ := List.getElem?_eq_some_iff.mp h
  rw [State.rest, List.drop_eq_getElem_cons lt, eq]

theorem rest_of_next {s t : State} {item : RunItem} {rest : List RunItem} (h : s.rest = item :: rest)
    (k : t.k = s.k + 1) (run : t.run = s.run) : t.rest = rest := by
  rw [State.rest, k, run, ← List.tail_drop, ← State.rest, h, List.tail_cons]

theorem coreRun_succ (M : Host.Core) {s t : M.State} (h : M.step s = .next t) (m : Nat) :
    M.run (m + 1) s = M.run m t := by
  rw [Host.Core.run, h]

end Sys2Proof.Machine
end

section
/-! One PROC (42_process.md R105 to R108): its outcome said once, with the sum, the new phase and the response it may
give, and the interval it keeps the phase in (R115). -/

namespace Sys2Proof.Machine

/-! ### What an operation gives -/

theorem FResult.Gives.eq_of_num {r : FResult} {v w : Word} (gives : r.Gives v) (num : r = .num w) : v = w := by
  rwa [num] at gives

theorem FResult.Gives.isNaN_of_nan {r : FResult} {v : Word} (gives : r.Gives v) (nan : r = .nan) : isNaN v = true := by
  rwa [nan] at gives

/-! ### The outcome of PROC -/

/-- `sum`, `p` and `y` are a sum, a new phase and a response that PROC may have from `s` (R105 to R108). -/
structure State.Sample (s : State) (sum p y : Word) : Prop where
  added : (fadd s.phase s.delta).Gives sum
  wrapped : (wrap sum).Gives p
  ramp : s.shape = .ramp → y = p
  sine : s.shape = .sine → ∃ x, (fmul p fTwoPi).Gives x ∧ (fsin s.inst x).Gives y

theorem shape_eq_ramp_or_sine (s : State) : s.shape = .ramp ∨ s.shape = .sine := by cases s.shape <;> simp

theorem withShaped_gives (s : State) (p : Word) (body : Word → State → State) : ∃ y n, (s.shape = .ramp → y = p) ∧
    (s.shape = .sine → ∃ x, (fmul p fTwoPi).Gives x ∧ (fsin s.inst x).Gives y) ∧
    s.withShaped p body = body y { s with draws := n } := by
  rcases shape_eq_ramp_or_sine s with shape | shape
  · exact ⟨p, s.draws, fun _ => rfl, by simp [shape], withShaped_ramp s p body shape⟩
  · obtain ⟨x, n₁, product, e₁⟩ := withResult_gives s (fmul p fTwoPi) fun x s => s.withResult (fsin s.inst x) body
    obtain ⟨y, n₂, response, e₂⟩ := withResult_gives { s with draws := n₁ } (fsin s.inst x) body
    exact ⟨y, n₂, by simp [shape], fun _ => ⟨x, product, response⟩, (withShaped_sine s p body shape).trans (e₁.trans e₂)⟩

theorem effectOf_proc_gives (s : State) : ∃ sum p y n, s.Sample sum p y ∧ effectOf .proc s =
    { s with phase := p, out := s.out ++ [y], draws := n } := by
  obtain ⟨sum, n₁, added, e₁⟩ := withResult_gives s (fadd s.phase s.delta) fun sum s => s.withResult (wrap sum) fun p s =>
    (s.writeReg .phase p).withShaped p fun y s => s.emit y
  obtain ⟨p, n₂, wrapped, e₂⟩ := withResult_gives { s with draws := n₁ } (wrap sum) fun p s =>
    (s.writeReg .phase p).withShaped p fun y s => s.emit y
  obtain ⟨y, n₃, ramp, sine, e₃⟩ :=
    withShaped_gives (State.writeReg { s with draws := n₂ } .phase p) p fun y s => s.emit y
  exact ⟨sum, p, y, n₃, ⟨added, wrapped, ramp, sine⟩, e₁.trans (e₂.trans e₃)⟩

theorem State.Sample.phase_eq {s : State} {sum p y v q : Word} (sample : s.Sample sum p y)
    (add : fadd s.phase s.delta = .num v) (wrapped : wrap v = .num q) : p = q := by
  obtain rfl := sample.added.eq_of_num add
  exact sample.wrapped.eq_of_num wrapped

/-- The state after a PROC with the new phase `p` and the response `y`, when `n` draws have been made. -/
def State.afterSample (s : State) (p y : Word) (n : Nat) : State :=
  { s with phase := p, out := s.out ++ [y], k := s.k + 1, draws := n }

section
variable (s : State) (p y : Word) (n : Nat)

@[simp] theorem afterSample_delta : (s.afterSample p y n).delta = s.delta := rfl
@[simp] theorem afterSample_out : (s.afterSample p y n).out = s.out ++ [y] := rfl
@[simp] theorem afterSample_k : (s.afterSample p y n).k = s.k + 1 := rfl

end

theorem exec_proc {s : State} (sound : s.flt = none) (readable : s.mayRead .delta = true) :
    ∃ sum p y n, s.Sample sum p y ∧ exec .proc s = .next (s.afterSample p y n) := by
  obtain ⟨sum, p, y, n, sample, effect⟩ := effectOf_proc_gives s
  refine ⟨sum, p, y, n, sample, ?_⟩
  rw [exec_of_readable sound rfl readable, effect]
  rfl

/-- R105's example: 0.75 and 0.25 make exactly 1.0, which is not wrapped. -/
theorem sum_of_example : fadd 0x3FE8000000000000#64 0x3FD0000000000000#64 = .num 0x3FF0000000000000#64 ∧
    wrap 0x3FF0000000000000#64 = .num 0x3FF0000000000000#64 := by
  constructor <;> decide +kernel

/-- Settles O17: PROC goes on where DELTA may be read, and raises its guard's reason where it may not. -/
theorem procAdvancesWrapsAndEmits : Obligations.ProcAdvancesWrapsAndEmits := by
  refine ⟨decode_commandWord_of_no_operand (i := .proc) rfl, fun s sound => ⟨fun may => ?_, ?_, ?_⟩⟩
  · obtain ⟨sum, p, y, n, sample, e⟩ := exec_proc sound ((mayRead_iff s .delta).mpr may)
    exact ⟨sum, p, y, n, sample.added, sample.wrapped, sample.ramp, sample.sine, e⟩
  · intro checked unwritten
    exact exec_of_unreadable sound rfl ((mayRead_checked s .delta checked).trans unwritten)
  · intro written ramp phase delta
    have effect : effectOf .proc s = (s.writeReg .phase 0x3FF0000000000000#64).emit 0x3FF0000000000000#64 := by
      rw [effectOf, phase, delta, sum_of_example.1, withResult_num, sum_of_example.2, withResult_num]
      exact withShaped_ramp (s.writeReg .phase 0x3FF0000000000000#64) _ _ ramp
    rw [exec_of_readable sound rfl ((mayRead_iff s .delta).mpr (.inr written)), effect]
    rfl

/-! ### The phase stays in [0, 1] (R115) -/

theorem inUnit_of_value {v : Word} (nonneg : 0 ≤ value v) (le_one : value v ≤ 1) : inUnit v := by
  rw [inUnit_iff_scaled, ← scaled_zero, ← value_le_iff, ← value_le_iff, value_zero, value_fOne]
  exact ⟨nonneg, le_one⟩

theorem State.Sample.inUnit {s : State} {sum p y : Word} (sample : s.Sample sum p y) (phase : inUnit s.phase)
    (delta : inUnit s.delta) : inUnit p := by
  obtain ⟨finPhase, phase_nonneg, phase_le⟩ := phase
  obtain ⟨finDelta, delta_nonneg, delta_le⟩ := delta
  obtain ⟨v, add, rounded⟩ := fadd_roundsTo finPhase finDelta
  have nonneg : 0 ≤ value v := by
    rw [← value_zero, value_le_iff]
    exact rounded.le_scaled (by decide) (by rw [value_zero]; linarith)
  have le_two : value v ≤ 2 := by
    rw [← value_fTwo, value_le_iff]
    exact rounded.scaled_le (by decide) (by rw [value_fTwo]; linarith)
  rcases lt_or_ge 1 (value v) with gt | le
  · obtain ⟨q, wrapped, difference⟩ := wrap_of_value_le_two gt le_two
    rw [sample.phase_eq add wrapped]
    exact inUnit_of_value (by linarith) (by linarith)
  · have low : scaled v ≤ scaled fOne := by rwa [← value_le_iff, value_fOne]
    rw [sample.phase_eq add (wrap_of_scaled_le low)]
    exact inUnit_of_value nonneg le

/-- Settles O29. -/
theorem procKeepsPhaseInUnit : Obligations.ProcKeepsPhaseInUnit := by
  intro s sound readable phase delta
  obtain ⟨sum, p, y, n, sample, e⟩ := exec_proc sound readable
  exact ⟨_, e, sample.inUnit phase delta, sound, readable, rfl⟩

/-! ### A run of PROC commands (R115, R123) -/

/-- Settles O30, by induction on the number of steps. -/
theorem procRunStaysInUnit : Obligations.ProcRunStaysInUnit := by
  intro s n m
  induction m generalizing s n with
  | zero => exact fun sound _ phase _ _ _ => ⟨s, [], rfl, sound, rfl, phase, rfl, by simp, rfl, by simp⟩
  | succ m ih =>
    intro sound readable phase delta rest le
    obtain ⟨n, rfl⟩ : ∃ n', n = n' + 1 := ⟨n - 1, by omega⟩
    obtain ⟨sum, p, y, draws, sample, e⟩ := exec_proc sound readable
    have inUnit_p := sample.inUnit phase delta
    have stepped := (step_of_command (nextItem_of_rest rest) (decode_encode .proc)).trans e
    obtain ⟨t, ys, run, tSound, k, tPhase, tDelta, out, length, ramp⟩ :=
      ih (s.afterSample p y draws) n sound readable inUnit_p delta (rest_of_next rest rfl rfl) (by omega)
    refine ⟨t, y :: ys, (coreRun_succ core stepped m).trans run, tSound, ?_, tPhase, tDelta, ?_, by simp [length],
      fun shape => ?_⟩
    · rw [k, afterSample_k]
      omega
    · rw [out, afterSample_out, List.append_assoc, List.singleton_append]
    · rw [List.forall_mem_cons]
      exact ⟨sample.ramp shape ▸ inUnit_p, ramp shape⟩

end Sys2Proof.Machine
end

section
/-! The host that keeps the phase in range (42_process.md R115, 70_reset_and_hazards.md R167, R169): the duties it has left
after each item, and the invariant through each move of a step. -/

namespace Sys2Proof.Machine

/-! ### The host's duties, one item on -/

/-- The sample rate that stands after a command, for the host's duty at SETF (R169). -/
def rateAfter : Instr → Option Word → Option Word
  | .setsr rate, _ => some rate
  | _, standing => standing

theorem hostKeepsRange_rest {w : CmdWord} {i : Instr} {rate : Option Word} {rest : List RunItem}
    (dec : decode w = .command i) (h : hostKeepsRange rate (.command w :: rest)) :
    hostKeepsRange (rateAfter i rate) rest := by
  simp only [hostKeepsRange, dec] at h
  cases i with
  | setf _ | setph _ => exact h.2
  | offph _ => exact h.elim
  | nop | setsr _ | proc | rdph | rdf | rdsr | rdd => exact h

theorem rateCovers_of_setf {w : CmdWord} {f r : Word} {rest : List RunItem} (dec : decode w = .command (.setf f))
    (h : hostKeepsRange (some r) (.command w :: rest)) : rateCovers f r := by
  simp only [hostKeepsRange, dec] at h
  exact h.1 r rfl

theorem inUnit_of_setph {w : CmdWord} {p : Word} {rate : Option Word} {rest : List RunItem}
    (dec : decode w = .command (.setph p)) (h : hostKeepsRange rate (.command w :: rest)) : inUnit p := by
  simp only [hostKeepsRange, dec] at h
  exact h.1

theorem not_hostKeepsRange_offph {w : CmdWord} {x : Word} {rate : Option Word} {rest : List RunItem}
    (dec : decode w = .command (.offph x)) : ¬ hostKeepsRange rate (.command w :: rest) := by
  simp only [hostKeepsRange, dec, not_false_eq_true]

theorem orderedRun_command_iff (m : Marks) (w : CmdWord) (rest : List RunItem) :
    orderedRun m (.command w :: rest) = true ↔ assignedWord w = true ∧ m.allow (opField w).toNat = true ∧
      orderedRun (m.after (opField w).toNat) rest = true := by
  rw [orderedRun, Bool.and_eq_true, Bool.and_eq_true, and_assoc]

/-! ### The state's side of the duties -/

/-- The sample rate that stands in a state, `none` while SR is unwritten. -/
def State.standingRate (s : State) : Option Word := if s.wrSr then some s.sr else none

theorem standingRate_effectOf (i : Instr) (s : State) : (effectOf i s).standingRate = rateAfter i s.standingRate := by
  have f := effectOf_frame i s
  cases i with
  | setsr rate => rfl
  | nop | setf _ | setph _ | offph _ | proc | rdph | rdf | rdsr | rdd =>
    rw [State.standingRate, f.sr (by simp [opcode]), f.wrSr]
    simp [State.standingRate, rateAfter, opcode]

/-- R146: where the order of the run allows a command, the register under its guard is written. -/
theorem isWritten_of_allow {s : State} {i : Instr} {r : Reg} {reason : Fault} (guarded : guardOf i = some (r, reason))
    (allowed : s.marks.allow (opcode i).toNat = true) : s.isWritten r = true := by
  cases i with
  | setf _ | proc | rdf | rdsr | rdd => cases guarded; exact allowed
  | nop | setsr _ | setph _ | offph _ | rdph => cases guarded

/-! ### A quotient in [0, 1] (R115, R169) -/

theorem inUnit_of_rateCovers {f r d : Word} (covers : rateCovers f r) (gives : (fdiv f r).Gives d) : inUnit d := by
  obtain ⟨finF, finR, pos, nonneg, le⟩ := covers
  have nonzero : isZero r = false := by
    by_contra zero
    exact pos.ne' (eq_zeroOf_of_isZero (Bool.eq_true_of_not_eq_false zero))
  obtain ⟨v, quotient, rounded, -⟩ := fdiv_rounds finF finR nonzero
  obtain rfl := gives.eq_of_num quotient
  exact rounded.inUnit (div_nonneg nonneg pos.le) ((div_le_one pos).mpr le)

/-! ### The invariant through a command's effect -/

section
variable {s : State} {w : CmdWord} {i : Instr}

/-- A command that has its effect finds its guard's register written: by the mark in the checked view, and by the order of
the host's run on the hardware. -/
theorem State.InRange.isWritten {r : Reg} {reason : Fault} (inv : s.InRange) (item : s.nextItem = some (.command w))
    (dec : decode w = .command i) (guarded : guardOf i = some (r, reason)) (readable : s.mayRead r = true) :
    s.isWritten r = true := by
  cases view : s.view with
  | checked => exact (mayRead_checked s r view).symm.trans readable
  | hardware =>
    have order := inv.order view
    rw [rest_of_nextItem item, orderedRun_command_iff, opField_of_decode_command dec] at order
    exact isWritten_of_allow guarded order.2.1

/-- An effect keeps the invariant when it leaves PHASE and a written DELTA in [0, 1]: the host's duties go on. -/
theorem State.InRange.of_effect (inv : s.InRange) (item : s.nextItem = some (.command w))
    (dec : decode w = .command i) (phase : inUnit (effectOf i s).phase)
    (delta : (effectOf i s).wrDelta = true → inUnit (effectOf i s).delta) : (effectOf i s).advance.InRange := by
  have f := effectOf_frame i s
  have rest : (effectOf i s).advance.rest = s.run.drop (s.k + 1) :=
    rest_of_next (rest_of_nextItem item) (by simp [f.k]) f.run
  have before := rest_of_nextItem item
  refine ⟨phase, delta, ?_, fun view => ?_⟩
  · have host := hostKeepsRange_rest dec (before ▸ inv.host)
    rw [rest]
    change hostKeepsRange (effectOf i s).standingRate _
    rw [standingRate_effectOf]
    exact host
  · have order := inv.order (f.view.symm.trans view)
    rw [before, orderedRun_command_iff, opField_of_decode_command dec] at order
    rw [rest]
    change orderedRun (effectOf i s).marks _ = true
    rw [f.marks]
    exact order.2.2

theorem State.InRange.effect (inv : s.InRange) (item : s.nextItem = some (.command w)) (dec : decode w = .command i)
    (readable : ∀ r reason, guardOf i = some (r, reason) → s.mayRead r = true) : (effectOf i s).advance.InRange := by
  have host := inv.host
  rw [rest_of_nextItem item] at host
  have f := effectOf_frame i s
  refine inv.of_effect item dec ?phase ?delta
  case phase =>
    cases i with
    | setph p => exact inUnit_of_setph dec host
    | offph x => exact absurd host (not_hostKeepsRange_offph dec)
    | proc =>
      have written := inv.isWritten item dec rfl (readable _ _ rfl)
      obtain ⟨sum, p, y, n, sample, e⟩ := effectOf_proc_gives s
      rw [e]
      exact sample.inUnit inv.phase (inv.delta written)
    | nop | setsr _ | setf _ | rdph | rdf | rdsr | rdd =>
      rw [f.phase (by simp [opcode]) (by simp [opcode]) (by simp [opcode])]
      exact inv.phase
  case delta =>
    cases i with
    | setf freq =>
      intro _
      have written : s.wrSr = true := inv.isWritten item dec rfl (readable _ _ rfl)
      rw [if_pos written] at host
      obtain ⟨d, n, gives, e⟩ := effectOf_setf_gives freq s
      rw [e]
      exact inUnit_of_rateCovers (rateCovers_of_setf dec host) gives
    | nop | setsr _ | setph _ | offph _ | proc | rdph | rdf | rdsr | rdd =>
      rw [f.delta (by simp [opcode]), f.wrDelta]
      simpa [opcode] using inv.delta

end

/-! ### The invariant at the start and through each move -/

theorem start_inRange (view : View) (inst : Nat) (shape : Shape) (run : List RunItem) (host : hostKeepsRange none run)
    (order : view = .hardware → orderedRun { freq := false, sr := false, delta := false } run = true) :
    (State.start view inst shape run).InRange :=
  ⟨inUnit_zero, nofun, host, order⟩

theorem State.InRange.raise {s : State} (inv : s.InRange) (reason : Fault) : (s.raise reason).InRange :=
  ⟨inv.phase, inv.delta, inv.host, inv.order⟩

theorem State.InRange.reset {s : State} (inv : s.InRange) (item : s.nextItem = some .reset) :
    s.resetRegisters.advance.InRange := by
  have before := rest_of_nextItem item
  have rest : s.resetRegisters.advance.rest = s.run.drop (s.k + 1) := rfl
  have host := inv.host
  have order := inv.order
  rw [before] at host order
  exact ⟨inUnit_zero, nofun, rest ▸ host, rest ▸ order⟩

/-- Settles O55, by the moves of a step: on the hardware the order of the run leaves no reserved word to take. -/
theorem stepKeepsPhaseInRange : Obligations.StepKeepsPhaseInRange := by
  refine ⟨start_inRange, fun s t inv h => ?_⟩
  cases (step_next h).2 with
  | idle => exact inv
  | reset item => exact inv.reset item
  | effect w i item dec readable => exact inv.effect item dec readable
  | unwritten w i r reason => exact inv.raise reason
  | raiseReserved w op => exact inv.raise (.reserved op)
  | freeReserved w op item dec hardware =>
    have order := inv.order hardware
    rw [rest_of_nextItem item, orderedRun_command_iff] at order
    obtain ⟨rfl, reserved⟩ := opField_of_decode_reserved dec
    have assigned := of_decide_eq_true order.1
    omega

end Sys2Proof.Machine
end

section
/-! Steps outside the normal range: a negative step, a step of 1.0, and phases that are not finite (42_process.md R118 to
R120). -/

namespace Sys2Proof.Machine

/-! ### Negative and unit steps (R118, R119) -/

/-- Settles O31: the sum does not round above PHASE, which is not above 1.0. -/
theorem negativeStepNeverWraps : Obligations.NegativeStepNeverWraps := by
  intro s sound readable finPhase finDelta negative le_one
  obtain ⟨v, add, rounded⟩ := fadd_roundsTo finPhase finDelta
  have falls : scaled v ≤ scaled s.phase := rounded.scaled_le finPhase (by linarith)
  have low : scaled v ≤ scaled fOne := falls.trans ((value_le_iff _ _).mp (le_one.trans_eq value_fOne.symm))
  obtain ⟨sum, p, y, n, sample, e⟩ := exec_proc sound readable
  exact ⟨v, _, add, fgt_of_scaled_le low, e, sample.phase_eq add (wrap_of_scaled_le low), falls⟩

/-- Settles O32: the first step of 1.0 ends at a fixed point of such a step. -/
theorem unitStepStaysPut : Obligations.UnitStepStaysPut := by
  intro s sound readable delta fin nonneg
  rw [← value_zero, value_le_iff, scaled_zero] at nonneg
  obtain ⟨v, q, add, wrapped, v', add', wrapped'⟩ := unitStep_reaches_fixed fin nonneg
  obtain ⟨sum, p, y, n, sample, e⟩ := exec_proc sound readable
  obtain rfl : p = q := sample.phase_eq (by rw [delta]; exact add) wrapped
  obtain ⟨sum', p', y', n', sample', e'⟩ := exec_proc (s := s.afterSample p y n) sound readable
  obtain rfl : p' = p := sample'.phase_eq (by rw [afterSample_delta, delta]; exact add') wrapped'
  exact ⟨_, _, e, e', rfl⟩

/-! ### Phases that are not finite (R120) -/

theorem isFinite_of_isNaN {v : Word} (nan : isNaN v = true) : isFinite v = false := by
  by_contra fin
  rw [isNaN_of_isFinite (Bool.eq_true_of_not_eq_false fin)] at nan
  cases nan

theorem isFinite_infOf (neg : Bool) : isFinite (infOf neg) = false := by cases neg <;> decide

/-- A pattern that is not finite is a NaN or one of the infinities. -/
theorem isNaN_or_eq_infOf {v : Word} (h : isFinite v = false) : isNaN v = true ∨ ∃ neg, v = infOf neg := by
  by_cases inf : v.toNat % 2 ^ 63 = 0x7FF0000000000000
  · refine .inr ⟨signBit v, ?_⟩
    rw [infOf, ← inf, withSign_signBit]
  · left
    have notFinite := (isFinite_iff v).not.mp (by simp [h])
    rw [isNaN_iff]
    omega

/-- A product of an infinity and one of R114's constants is that infinity. -/
theorem fmul_infOf_constants (neg : Bool) : fmul (infOf neg) fTwo = .num (infOf neg) ∧
    fmul (infOf neg) fPi = .num (infOf neg) ∧ fmul (infOf neg) fTwoPi = .num (infOf neg) := by
  cases neg <;> decide +kernel

/-- The sine's argument is not finite where the phase is not. -/
theorem isFinite_of_fmul_fTwoPi {p x : Word} (h : isFinite p = false) (product : (fmul p fTwoPi).Gives x) :
    isFinite x = false := by
  rcases isNaN_or_eq_infOf h with nan | ⟨neg, rfl⟩
  · exact isFinite_of_isNaN (product.isNaN_of_nan (fmul_nan (.inl nan)))
  · rw [product.eq_of_num (fmul_infOf_constants neg).2.2]
    exact isFinite_infOf neg

/-- R112: the sine of an argument that is not finite is a NaN. -/
theorem isNaN_of_fsin {inst : Nat} {x y : Word} (h : isFinite x = false) (response : (fsin inst x).Gives y) :
    isNaN y = true := response.isNaN_of_nan (fsin_nonfinite inst x h)

section
variable {s : State} {sum p y : Word}

/-- With SINE a new phase that is not finite is answered by a NaN. -/
theorem State.Sample.sine_nan (sample : s.Sample sum p y) (h : isFinite p = false) (shape : s.shape = .sine) :
    isNaN y = true := by
  obtain ⟨x, product, response⟩ := sample.sine shape
  exact isNaN_of_fsin (isFinite_of_fmul_fTwoPi h product) response

/-- A sum without a value goes through the wrap and the shaper as a NaN. -/
theorem State.Sample.nan (sample : s.Sample sum p y) (add : fadd s.phase s.delta = .nan) :
    isNaN p = true ∧ isNaN y = true := by
  have nan := sample.added.isNaN_of_nan add
  obtain rfl : p = sum := sample.wrapped.eq_of_num (wrap_of_isNaN nan)
  refine ⟨nan, ?_⟩
  rcases shape_eq_ramp_or_sine s with shape | shape
  · rwa [sample.ramp shape]
  · exact sample.sine_nan (isFinite_of_isNaN nan) shape

end

/-- Adding to an infinity anything but a NaN and its opposite, or an infinity to a finite value, gives that infinity. -/
theorem fadd_infinite {a b : Word} {neg : Bool} (h : (a = infOf neg ∧ isNaN b = false ∧ b ≠ infOf (!neg)) ∨
    (isFinite a = true ∧ b = infOf neg)) : fadd a b = .num (infOf neg) := by
  obtain ⟨-, -, -, infinities, infiniteAndFinite⟩ := sumIsCorrectlyRounded
  rcases h with ⟨rfl, notNaN, notOpposite⟩ | ⟨fin, rfl⟩
  · cases fin : isFinite b with
    | true => exact (infiniteAndFinite neg b fin).1
    | false =>
      obtain ⟨neg', rfl⟩ := (isNaN_or_eq_infOf fin).resolve_left (by simp [notNaN])
      obtain rfl : neg' = neg := by
        by_contra ne
        exact notOpposite (by rw [Bool.eq_not.mpr ne])
      exact (infinities neg').2
  · exact (infiniteAndFinite neg a fin).2

/-- Settles O33: a NaN sum and an infinite sum each go through the wrap unchanged. -/
theorem nonFinitePhasePropagates : Obligations.NonFinitePhasePropagates := by
  intro s sound readable
  obtain ⟨sum, p, y, n, sample, e⟩ := exec_proc sound readable
  refine ⟨fun nan => ?_, fun neg inf => ?_, fun neg phase delta => ?_⟩
  · obtain ⟨nan_p, nan_y⟩ := sample.nan (fadd_nan nan)
    exact ⟨_, y, e, nan_p, rfl, nan_y, sample.ramp⟩
  · obtain rfl := sample.phase_eq (fadd_infinite inf) (wrap_infOf neg)
    exact ⟨_, y, e, rfl, rfl, sample.ramp, sample.sine_nan (isFinite_infOf neg)⟩
  · obtain ⟨-, -, -, infinities, -⟩ := sumIsCorrectlyRounded
    obtain ⟨nan_p, nan_y⟩ := sample.nan (by rw [phase, delta, (infinities neg).1])
    exact ⟨_, y, e, nan_p, rfl, nan_y⟩

end Sys2Proof.Machine
end

section
/-! The sine's argument (42_process.md R108, R114): the product of the phase and `TWO_PI` on patterns. -/

namespace Sys2Proof.Machine

/-! ### The product on patterns -/

/-- The pattern of the magnitude of `fmul(p, TWO_PI)`, by the pattern of the magnitude of `p`. -/
def argumentPattern (m : Nat) : Nat := roundMag (patternMagnitude m * magnitude fTwoPi) unitsPerOne

theorem unitsPerOne_natPos : 0 < unitsPerOne := by exact_mod_cast unitsPerOne_pos

theorem argumentPattern_mono {m n : Nat} (le : m ≤ n) : argumentPattern m ≤ argumentPattern n :=
  roundMag_mono unitsPerOne_natPos (Nat.mul_le_mul_right _ (patternMagnitude_strictMono.monotone le))

theorem fmul_fTwoPi {p : Word} (fin : isFinite p = true) :
    fmul p fTwoPi = .num (withSign (signBit p) (argumentPattern (p.toNat % 2 ^ 63))) := by
  rw [fmul_of_finite fin (by decide), show signBit fTwoPi = false by decide, Bool.xor_false, magnitude_eq p,
    argumentPattern]

/-! ### The two argument forms -/

/-- A pattern of twice a pattern's magnitude: the next binade's, or among the subnormals the doubled fraction. -/
theorem exists_patternMagnitude_double (m : Nat) : ∃ n, patternMagnitude n = 2 * patternMagnitude m := by
  rcases Nat.lt_or_ge m (2 ^ 52) with sub | normal
  · have single := patternMagnitude_assembled m 0 (.inl rfl) (by omega)
    have double := patternMagnitude_assembled (2 * m) 0 (.inl rfl) (by omega)
    simp only [Nat.zero_mul, Nat.zero_add, pow_zero, Nat.mul_one] at single double
    exact ⟨2 * m, by rw [double, single]⟩
  · obtain ⟨k, split, lo, hi⟩ := exists_significand normal
    generalize m / 2 ^ 52 - 1 = e at split
    refine ⟨(e + 1) * 2 ^ 52 + k, ?_⟩
    rw [split, patternMagnitude_normal k (e + 1) lo hi, patternMagnitude_normal k e lo hi]
    ring

/-- A magnitude times 1 is rounded to its pattern, or to the infinity's. -/
theorem roundMag_mul_unitsPerOne (n : Nat) :
    roundMag (patternMagnitude n * unitsPerOne) unitsPerOne = min n 0x7FF0000000000000 := by
  rw [roundMag_eq_min, NearestPattern.uncappedRound_eq unitsPerOne_natPos]
  rw [Nat.cast_mul, mul_div_cancel_right₀ _ unitsPerOne_pos.ne']
  exact nearestPattern_self n

theorem magnitude_fTwo : magnitude fTwo = 2 * unitsPerOne := by decide +kernel

theorem magnitude_fTwoPi : magnitude fTwoPi = 2 * magnitude fPi := by decide +kernel

/-- The doubled value is exact unless it is infinite, and where it is infinite so are both arguments. -/
theorem fmul_fTwo_fPi {p d : Word} (fin : isFinite p = true) (double : fmul p fTwo = .num d) :
    fmul d fPi = fmul p fTwoPi := by
  obtain ⟨n, hn⟩ := exists_patternMagnitude_double (p.toNat % 2 ^ 63)
  have doubled : d = withSign (signBit p) (min n 0x7FF0000000000000) := by
    rw [fmul_of_finite fin (by decide), show signBit fTwo = false by decide, Bool.xor_false, magnitude_fTwo,
      magnitude_eq p, ← mul_assoc, mul_comm _ 2, ← hn, roundMag_mul_unitsPerOne] at double
    exact (FResult.num.inj double).symm
  rcases Nat.lt_or_ge n 0x7FF0000000000000 with finite | overflow
  · have small : n < 2 ^ 63 := by omega
    have product : patternMagnitude n * magnitude fPi = patternMagnitude (p.toNat % 2 ^ 63) * magnitude fTwoPi := by
      rw [hn, magnitude_fTwoPi, mul_comm 2, mul_assoc]
    rw [doubled, min_eq_left finite.le, fmul_of_finite (isFinite_withSign _ finite) (by decide),
      signBit_withSign _ _ small, show signBit fPi = false by decide, Bool.xor_false, magnitude_withSign _ _ small,
      fmul_fTwoPi fin, argumentPattern, product]
  · have infinite : argumentPattern (p.toNat % 2 ^ 63) = 0x7FF0000000000000 := by
      refine le_antisymm (roundMag_le _ _) ?_
      have big : 2 * unitsPerOne ≤ magnitude fTwoPi := by decide +kernel
      have bound := roundMag_mono unitsPerOne_natPos (n := patternMagnitude n * unitsPerOne)
        (m := patternMagnitude (p.toNat % 2 ^ 63) * magnitude fTwoPi) (by
          rw [hn, mul_comm 2, mul_assoc]
          exact Nat.mul_le_mul_left _ big)
      rwa [roundMag_mul_unitsPerOne, min_eq_right overflow] at bound
    rw [doubled, min_eq_right overflow, fmul_fTwoPi fin, infinite]
    exact (fmul_infOf_constants (signBit p)).2.1

theorem argument_forms_agree {p d : Word} (double : fmul p fTwo = .num d) : fmul d fPi = fmul p fTwoPi := by
  cases fin : isFinite p with
  | true => exact fmul_fTwo_fPi fin double
  | false =>
    rcases isNaN_or_eq_infOf fin with nan | ⟨neg, rfl⟩
    · rw [fmul_nan (.inl nan)] at double
      cases double
    · obtain ⟨two, pi, twoPi⟩ := fmul_infOf_constants neg
      obtain rfl : infOf neg = d := FResult.num.inj (two.symm.trans double)
      rw [pi, twoPi]

theorem argument_nan {p : Word} (double : fmul p fTwo = .nan) : fmul p fTwoPi = .nan := by
  cases fin : isFinite p with
  | true =>
    rw [fmul_of_finite fin (by decide)] at double
    cases double
  | false =>
    rcases isNaN_or_eq_infOf fin with nan | ⟨neg, rfl⟩
    · exact fmul_nan (.inl nan)
    · cases (fmul_infOf_constants neg).1.symm.trans double

/-! ### The overflow bound -/

/-- The product's pattern is the infinity's exactly above the bound: at the bound it is not, one pattern on it is. -/
theorem argumentPattern_eq_inf_iff (m : Nat) : argumentPattern m = 0x7FF0000000000000 ↔ 0x7FC45F306DC9C882 < m := by
  have finite : argumentPattern 0x7FC45F306DC9C882 < 0x7FF0000000000000 := by decide +kernel
  have infinite : argumentPattern 0x7FC45F306DC9C883 = 0x7FF0000000000000 := by decide +kernel
  constructor
  · intro eq
    by_contra le
    have := argumentPattern_mono (not_lt.mp le)
    omega
  · intro lt
    have := argumentPattern_mono (Nat.succ_le_of_lt lt)
    exact le_antisymm (roundMag_le _ _) (infinite.symm.trans_le this)

theorem argument_overflows_iff {p : Word} (fin : isFinite p = true) : ∃ x, fmul p fTwoPi = .num x ∧
    (isInf x = true ↔ value 0x7FC45F306DC9C882#64 < |value p|) := by
  have bound : value 0x7FC45F306DC9C882#64 = |value 0x7FC45F306DC9C882#64| := by
    rw [eq_comm, abs_eq_self, ← value_zero, value_le_iff]
    decide +kernel
  have lt : argumentPattern (p.toNat % 2 ^ 63) < 2 ^ 63 := roundMag_lt _ _
  have pattern : (withSign (signBit p) (argumentPattern (p.toNat % 2 ^ 63))).toNat % 2 ^ 63 =
      argumentPattern (p.toNat % 2 ^ 63) := by
    rw [withSign_toNat _ _ lt]
    split <;> omega
  refine ⟨_, fmul_fTwoPi fin, ?_⟩
  rw [isInf_iff, pattern, argumentPattern_eq_inf_iff, bound, abs_value, abs_value,
    div_lt_div_iff_of_pos_right unitsPerOne_pos, Nat.cast_lt, magnitude_eq, magnitude_eq,
    patternMagnitude_strictMono.lt_iff_lt]
  rfl

/-! ### The constant -/

theorem value_afterTwoPi : value 0x401921FB54442D19#64 = 2 * (7074237752028441 / 2251799813685248) := by
  have h : scaled 0x401921FB54442D19#64 = 2 * scaled 0x400921FB54442D19#64 := by decide +kernel
  rw [← value_afterPi, value, value, h]
  push_cast
  ring

/-- Twice the circle constant lies between `TWO_PI` and the next value, nearer to `TWO_PI`. -/
theorem fTwoPi_nearest (w : Word) :
    |((value fTwoPi : ℚ) : ℝ) - 2 * Real.pi| ≤ |((value w : ℚ) : ℝ) - 2 * Real.pi| := by
  have gt := Real.pi_gt_d20
  have lt := Real.pi_lt_d20
  have twoPi : ((value fTwoPi : ℚ) : ℝ) = 2 * (884279719003555 / 281474976710656) := by
    rw [value_fTwoPi]
    push_cast
    rfl
  have after : ((value 0x401921FB54442D19#64 : ℚ) : ℝ) = 2 * (7074237752028441 / 2251799813685248) := by
    rw [value_afterTwoPi]
    push_cast
    rfl
  have below : ((value fTwoPi : ℚ) : ℝ) ≤ 2 * Real.pi := by
    rw [twoPi]
    norm_num at gt ⊢
    linarith
  have nearer : 2 * Real.pi - (value fTwoPi : ℚ) ≤ ((value 0x401921FB54442D19#64 : ℚ) : ℝ) - 2 * Real.pi := by
    rw [twoPi, after]
    norm_num at lt ⊢
    linarith
  rw [abs_of_nonpos (sub_nonpos.mpr below)]
  rcases le_or_gt (scaled w) (scaled fTwoPi) with le | above
  · have le' : ((value w : ℚ) : ℝ) ≤ ((value fTwoPi : ℚ) : ℝ) := by exact_mod_cast value_le_value le
    exact le_trans (by linarith) (neg_le_abs _)
  · have pos : 0 < scaled fTwoPi := by decide +kernel
    have posW := pos.trans above
    have next : scaled 0x401921FB54442D19#64 ≤ scaled w := by
      rw [scaled_lt_iff _ _ pos posW] at above
      rw [← not_lt, scaled_lt_iff _ _ posW (by decide +kernel), not_lt]
      exact above
    have le' : ((value 0x401921FB54442D19#64 : ℚ) : ℝ) ≤ ((value w : ℚ) : ℝ) := by exact_mod_cast value_le_value next
    exact le_trans (by linarith) (le_abs_self _)

/-- Settles O28. -/
theorem sineArgumentForms : Obligations.SineArgumentForms :=
  ⟨fun w _ => fTwoPi_nearest w, fun _ _ => argument_forms_agree, fun _ => argument_nan, fun _ => argument_overflows_iff⟩

end Sys2Proof.Machine
end

section
/-! The SINE response (42_process.md R108 to R112, R124): the laws every lawful `SIN` has, at the argument PROC forms. -/

namespace Sys2Proof.Machine

/-! ### The response as a value of the block's own `SIN` -/

/-- The response of a finite argument is `SIN`'s value there. -/
theorem eq_eval_of_fsin {inst : Nat} {x y : Word} (fin : isFinite x = true) (response : (fsin inst x).Gives y) :
    y = (instanceSin inst).eval x := response.eq_of_num (fsin_finite inst x fin)

theorem State.Sample.sine_of_product {s : State} {sum p y x : Word} (sample : s.Sample sum p y) (shape : s.shape = .sine)
    (product : fmul p fTwoPi = .num x) (fin : isFinite x = true) : y = (instanceSin s.inst).eval x := by
  obtain ⟨x', gives, response⟩ := sample.sine shape
  obtain rfl := gives.eq_of_num product
  exact eq_eval_of_fsin fin response

/-! ### Range and accuracy (R110 to R112) -/

/-- Settles O34, by the laws of range and of arguments that are not finite. -/
theorem sineResponseRange : Obligations.SineResponseRange := by
  intro s sound readable shape
  obtain ⟨sum, p, y, n, sample, e⟩ := exec_proc sound readable
  obtain ⟨x, product, response⟩ := sample.sine shape
  refine ⟨_, x, y, e, product, rfl, fun fin => ?_, fun fin => isNaN_of_fsin fin response⟩
  obtain ⟨err, -, laws⟩ := (instanceSin s.inst).lawful
  obtain ⟨finite, bound⟩ := laws.range x fin
  rw [← eq_eval_of_fsin fin response] at finite bound
  have le := abs_value_le (a := y) (b := fOne) (by rwa [scaled_fOne])
  rw [value_fOne] at le
  exact ⟨finite, abs_le.mp le⟩

theorem magnitude_le_of_abs_value_le {x b : Word} (nonneg : 0 ≤ scaled b) (le : |value x| ≤ value b) :
    magnitude x ≤ magnitude b := by
  have same : value b = |value b| := by
    rw [eq_comm, abs_eq_self, ← value_zero, value_le_iff, scaled_zero]
    exact nonneg
  rw [same, abs_value, abs_value, div_le_div_iff_of_pos_right unitsPerOne_pos] at le
  exact_mod_cast le

/-- Settles O35, by the law of accuracy. -/
theorem sineResponseAccuracy : Obligations.SineResponseAccuracy := by
  intro s sound readable shape
  obtain ⟨sum, p, y, n, sample, e⟩ := exec_proc sound readable
  refine ⟨_, y, e, rfl, fun x product fin le => ?_⟩
  obtain ⟨err, small, laws⟩ := (instanceSin s.inst).lawful
  rw [sample.sine_of_product shape product fin]
  exact (laws.accuracy x fin (magnitude_le_of_abs_value_le (by decide +kernel) le)).trans small

/-! ### The argument of a phase in (0, 1), and the sign (R124) -/

theorem scaled_withSign_lt {m n : Nat} (lt : m < n) (fin : n < 0x7FF0000000000000) :
    scaled (withSign false m) < scaled (withSign false n) := by
  rw [scaled_withSign_false (by omega), scaled_withSign_false fin, Int.ofNat_lt]
  exact patternMagnitude_strictMono lt

theorem value_half : value 0x3FE0000000000000#64 = 1 / 2 := by
  have h : 2 * scaled 0x3FE0000000000000#64 = scaled fOne := by decide +kernel
  have h' : (2 : ℚ) * value 0x3FE0000000000000#64 = value fOne := by
    rw [value, value, ← h]
    push_cast
    ring
  rw [value_fOne] at h'
  linarith

theorem toNat_pos_of_scaled_pos {v : Word} (pos : 0 < scaled v) : 0 < v.toNat := by
  refine Nat.pos_of_ne_zero fun zero => ?_
  rw [scaled_of_pos v pos, zero, patternMagnitude_zero] at pos
  exact lt_irrefl _ pos

/-- The argument of a positive phase. -/
theorem fmul_fTwoPi_of_pos {p : Word} (fin : isFinite p = true) (pos : 0 < scaled p) :
    fmul p fTwoPi = .num (withSign false (argumentPattern p.toNat)) := by
  have lt := toNat_lt_of_scaled_pos p pos
  rw [fmul_fTwoPi fin, Nat.mod_eq_of_lt lt, signBit_eq, decide_eq_false (not_le.mpr lt)]

section
variable {s : State} {sum p y : Word}

/-- With a new phase whose pattern lies between `lo` and `hi`, the response is `SIN` of an argument between theirs. -/
theorem State.Sample.sine_between {lo hi : Nat} (sample : s.Sample sum p y) (shape : s.shape = .sine)
    (fin : isFinite p = true) (pos : 0 < scaled p) (ge : lo ≤ p.toNat) (le : p.toNat ≤ hi)
    (finite : argumentPattern hi < 0x7FF0000000000000) : ∃ a, argumentPattern lo ≤ a ∧ a ≤ argumentPattern hi ∧
      y = (instanceSin s.inst).eval (withSign false a) := by
  have le' := argumentPattern_mono le
  exact ⟨_, argumentPattern_mono ge, le', sample.sine_of_product shape (fmul_fTwoPi_of_pos fin pos)
    (isFinite_withSign false (by omega))⟩

/-- Below 1/2 the argument rounds to no more than the value before `PI`. -/
theorem State.Sample.sine_pos (sample : s.Sample sum p y) (shape : s.shape = .sine) (fin : isFinite p = true)
    (lower : 0 < value p) (upper : value p < 1 / 2) : 0 < value y := by
  have pos : 0 < scaled p := by rwa [← scaled_zero, ← value_lt_iff, value_zero]
  rw [← value_half, value_lt_iff, scaled_lt_iff _ _ pos (by decide +kernel)] at upper
  obtain ⟨a, ge, le, rfl⟩ := sample.sine_between (lo := 1) (hi := 0x3FDFFFFFFFFFFFFF) shape fin pos
    (toNat_pos_of_scaled_pos pos) (Nat.le_of_lt_succ upper) (by decide +kernel)
  have above : 0 < argumentPattern 1 := by decide +kernel
  have below : argumentPattern 0x3FDFFFFFFFFFFFFF < 0x400921FB54442D18 := by decide +kernel
  obtain ⟨err, -, laws⟩ := (instanceSin s.inst).lawful
  exact value_pos (laws.positive _ (isFinite_withSign false (by omega))
    (scaled_withSign_lt (m := 0) (by omega) (by omega))
    (scaled_withSign_lt (n := 0x400921FB54442D18) (by omega) (by norm_num)))

/-- Between 1/2 and 1 the argument rounds to a value strictly between `PI` and `TWO_PI`. -/
theorem State.Sample.sine_neg (sample : s.Sample sum p y) (shape : s.shape = .sine) (fin : isFinite p = true)
    (lower : 1 / 2 < value p) (upper : value p < 1) : value y < 0 := by
  have half : 0 < scaled 0x3FE0000000000000#64 := by decide +kernel
  rw [← value_half, value_lt_iff] at lower
  have pos := half.trans lower
  rw [scaled_lt_iff _ _ half pos] at lower
  rw [← value_fOne, value_lt_iff, scaled_lt_iff _ _ pos scaled_fOne_pos] at upper
  obtain ⟨a, ge, le, rfl⟩ := sample.sine_between (lo := 0x3FE0000000000001) (hi := 0x3FEFFFFFFFFFFFFF) shape fin pos
    lower (Nat.le_of_lt_succ upper) (by decide +kernel)
  have above : 0x400921FB54442D18 < argumentPattern 0x3FE0000000000001 := by decide +kernel
  have below : argumentPattern 0x3FEFFFFFFFFFFFFF < 0x401921FB54442D18 := by decide +kernel
  obtain ⟨err, -, laws⟩ := (instanceSin s.inst).lawful
  rw [← value_zero, value_lt_iff, scaled_zero]
  exact laws.negative _ (isFinite_withSign false (by omega))
    (scaled_withSign_lt (m := 0x400921FB54442D18) (by omega) (by omega))
    (scaled_withSign_lt (n := 0x401921FB54442D18) (by omega) (by norm_num))

end

/-- The arguments of the phases +0, 1/2 and 1 are exact. -/
theorem arguments_of_ends : fmul 0x0000000000000000#64 fTwoPi = .num (zeroOf false) ∧
    fmul 0x3FE0000000000000#64 fTwoPi = .num fPi ∧ fmul 0x3FF0000000000000#64 fTwoPi = .num fTwoPi := by decide +kernel

/-- Settles O36, by the sign laws on the open intervals and at their ends. -/
theorem sineSignFollowsPhase : Obligations.SineSignFollowsPhase := by
  intro s sound readable shape
  obtain ⟨sum, p, y, n, sample, e⟩ := exec_proc sound readable
  obtain ⟨atZero, atHalf, atOne⟩ := arguments_of_ends
  obtain ⟨err, -, laws⟩ := (instanceSin s.inst).lawful
  refine ⟨_, y, e, rfl, sample.sine_pos shape, sample.sine_neg shape, ?_, ?_, ?_⟩ <;> rintro rfl
  · rw [sample.sine_of_product shape atZero (by decide), laws.at_zero]
    rfl
  · rw [sample.sine_of_product shape atHalf (by decide), ← value_zero, value_le_iff, scaled_zero]
    exact laws.at_pi
  · rw [sample.sine_of_product shape atOne (by decide), ← value_zero, value_le_iff, scaled_zero]
    exact laws.at_twoPi

end Sys2Proof.Machine
end

section
/-! The read-back commands: each emits one register and changes none. RDPH is not guarded, since reset defines PHASE; the
others are guarded by the mark of the register they emit (43_readback.md R125 to R128, 60_exceptions.md R137). -/

namespace Sys2Proof.Machine

/-- The two outcomes of a guarded command, in the terms of R137: its effect on the hardware and once the guard's register
is written, and the guard's reason in the checked view before. -/
theorem exec_of_guarded {i : Instr} {s : State} {r : Reg} {reason : Fault} (sound : s.flt = none)
    (guarded : guardOf i = some (r, reason)) :
    (s.view = .hardware ∨ s.isWritten r = true → exec i s = .next (effectOf i s).advance) ∧
      (s.view = .checked → s.isWritten r = false → exec i s = .next (s.raise reason)) := by
  constructor
  · intro may
    exact exec_of_readable sound guarded ((mayRead_iff s r).mpr may)
  · intro checked unwritten
    exact exec_of_unreadable sound guarded ((mayRead_checked s r checked).trans unwritten)

/-- Settles O18: RDPH has no guard, so emitting PHASE is what happens in every sound state. -/
theorem rdphEmitsPhase : Obligations.RdphEmitsPhase :=
  ⟨decode_commandWord_of_no_operand (i := .rdph) rfl, fun _ sound => exec_of_unguarded sound rfl⟩

/-- Settles O19: RDF is guarded by the mark of FREQ, and its effect is to emit FREQ. -/
theorem rdfEmitsFrequency : Obligations.RdfEmitsFrequency :=
  ⟨decode_commandWord_of_no_operand (i := .rdf) rfl, fun _ sound => exec_of_guarded (r := .freq) sound rfl⟩

/-- Settles O20: RDSR is guarded by the mark of SR, and its effect is to emit SR. -/
theorem rdsrEmitsSampleRate : Obligations.RdsrEmitsSampleRate :=
  ⟨decode_commandWord_of_no_operand (i := .rdsr) rfl, fun _ sound => exec_of_guarded (r := .sr) sound rfl⟩

/-- Settles O21: RDD is guarded by the mark of DELTA, and its effect is to emit DELTA. -/
theorem rddEmitsDelta : Obligations.RddEmitsDelta :=
  ⟨decode_commandWord_of_no_operand (i := .rdd) rfl, fun _ sound => exec_of_guarded (r := .delta) sound rfl⟩

end Sys2Proof.Machine
end

section
/-! A host that keeps the ordering duties (60_exceptions.md R146): no move from a sound state is a fault, and the duties go
on over the rest of the run. -/

namespace Sys2Proof.Machine

/-- No fault, and a host that keeps duties 1, 3 and 4 of R146 over the rest of the run. -/
structure State.HostOrdered (s : State) : Prop where
  sound : s.flt = none
  order : orderedRun s.marks s.rest = true

section
variable {s t : State} {w : CmdWord} {i : Instr}

/-! ### What the duties say of the next item -/

theorem State.HostOrdered.reset (inv : s.HostOrdered) (item : s.nextItem = some .reset) :
    s.resetRegisters.advance.HostOrdered := by
  have order := inv.order
  rw [rest_of_nextItem item] at order
  exact ⟨inv.sound, order⟩

/-- R146 duty 4: the next word is not a reserved one. -/
theorem State.HostOrdered.not_reserved {op : BitVec 8} (inv : s.HostOrdered) (item : s.nextItem = some (.command w)) :
    decode w ≠ .reserved op := by
  intro dec
  have order := inv.order
  rw [rest_of_nextItem item, orderedRun_command_iff] at order
  obtain ⟨rfl, reserved⟩ := opField_of_decode_reserved dec
  have assigned := of_decide_eq_true order.1
  omega

/-- The order allows the next command, and goes on after its marks. -/
theorem State.HostOrdered.command (inv : s.HostOrdered) (item : s.nextItem = some (.command w))
    (dec : decode w = .command i) : s.marks.allow (opcode i).toNat = true ∧
      orderedRun (s.marks.after (opcode i).toNat) (s.run.drop (s.k + 1)) = true := by
  have order := inv.order
  rw [rest_of_nextItem item, orderedRun_command_iff, opField_of_decode_command dec] at order
  exact order.2

/-- R146 duties 1 and 3, R126 to R128: the register under the guard is written, so both views may read it. -/
theorem State.HostOrdered.mayRead {r : Reg} {reason : Fault} (inv : s.HostOrdered)
    (item : s.nextItem = some (.command w)) (dec : decode w = .command i) (guarded : guardOf i = some (r, reason)) :
    s.mayRead r = true :=
  (mayRead_iff s r).mpr (.inr (isWritten_of_allow guarded (inv.command item dec).1))

theorem State.HostOrdered.effect (inv : s.HostOrdered) (item : s.nextItem = some (.command w))
    (dec : decode w = .command i) : (effectOf i s).advance.HostOrdered := by
  have f := effectOf_frame i s
  refine ⟨f.flt.trans inv.sound, ?_⟩
  have rest : (effectOf i s).advance.rest = s.run.drop (s.k + 1) :=
    rest_of_next (rest_of_nextItem item) (by simp [f.k]) f.run
  have marks : (effectOf i s).advance.marks = s.marks.after (opcode i).toNat := f.marks
  rw [rest, marks]
  exact (inv.command item dec).2

/-! ### The step -/

/-- The moves that would fault or take a reserved word are those the duties exclude. -/
theorem Move.keeps_hostOrdered (move : Move s t) (inv : s.HostOrdered) : t.HostOrdered := by
  cases move with
  | idle => exact inv
  | reset item => exact inv.reset item
  | effect w i item dec => exact inv.effect item dec
  | unwritten w i r reason item dec guarded unreadable =>
    have readable := inv.mayRead item dec guarded
    simp [unreadable] at readable
  | freeReserved w op item dec => exact absurd dec (inv.not_reserved item)
  | raiseReserved w op item dec => exact absurd dec (inv.not_reserved item)

theorem State.HostOrdered.exists_step (inv : s.HostOrdered) : ∃ t, step s = .next t ∧ t.HostOrdered := by
  obtain ⟨t, stepped⟩ := exists_step_of_sound inv.sound
  exact ⟨t, stepped, (step_next stepped).2.keeps_hostOrdered inv⟩

/-- A step with no fault leaves the run as it was and moves `k` by 1, but not past the end of the run. -/
theorem position_of_step (h : step s = .next t) (noFault : t.flt = none) (inRun : s.k ≤ s.run.length) :
    t.run = s.run ∧ t.k = min (s.k + 1) s.run.length := by
  rcases (stepMovesOrMarks s t h).2 with ⟨-, k, lt, -, run, -⟩ | ⟨reason, -, rfl⟩ | ⟨atEnd, rfl⟩
  · exact ⟨run, by omega⟩
  · simp at noFault
  · exact ⟨rfl, by omega⟩

/-- Any number of steps of an ordered host completes, and as many items are executed as there are steps, or as are left. -/
theorem State.HostOrdered.exists_coreRun (inv : s.HostOrdered) (inRun : s.k ≤ s.run.length) (n : Nat) :
    ∃ t, core.run n s = .next t ∧ t.flt = none ∧ t.run = s.run ∧ t.k = min (s.k + n) s.run.length := by
  induction n generalizing s with
  | zero => exact ⟨s, rfl, inv.sound, rfl, by omega⟩
  | succ n ih =>
    obtain ⟨u, stepped, inv'⟩ := inv.exists_step
    obtain ⟨run, k⟩ := position_of_step stepped inv'.sound inRun
    obtain ⟨t, rest, sound, run', k'⟩ := ih inv' (by rw [run]; omega)
    refine ⟨t, (coreRun_succ core stepped n).trans rest, sound, run'.trans run, ?_⟩
    rw [k', run, k]
    omega

end

/-- Settles O56: a sound state has a step, and its move keeps the host's order. -/
theorem stepKeepsHostOrder : Obligations.StepKeepsHostOrder := by
  intro s sound order
  obtain ⟨t, stepped, inv⟩ := State.HostOrdered.exists_step ⟨sound, order⟩
  exact ⟨t, stepped, inv.sound, inv.order⟩

/-- Settles O42: after as many steps as items are left, `k` has reached the end of the run. -/
theorem orderedRunEndsWell : Obligations.OrderedRunEndsWell := by
  intro s sound inRun order
  have completes := State.HostOrdered.exists_coreRun ⟨sound, order⟩ inRun
  constructor
  · intro n
    obtain ⟨t, ran, noFault, -⟩ := completes n
    exact ⟨t, ran, noFault⟩
  · obtain ⟨t, ran, noFault, run, k⟩ := completes s.rest.length
    have left : s.rest.length = s.run.length - s.k := List.length_drop
    exact ⟨t, ran, by rw [k, run]; omega, noFault⟩

end Sys2Proof.Machine
end

section
/-! Where nothing stops: the end of the run, and the hardware (60_exceptions.md R135, R149, 70_reset_and_hazards.md
R152). -/

namespace Sys2Proof.Machine

/-- Settles O10: no item is left, so the step is the idle one. -/
theorem endOfRunHoldsEverything : Obligations.EndOfRunHoldsEverything := by
  intro s sound atEnd
  rw [step_of_end s (List.getElem?_eq_none_iff.mpr atEnd)]
  exact whileSound_sound s _ sound

/-- A step of the hardware raises no fault: a fault is raised in the checked view alone (R137). -/
theorem step_keeps_hardware {s t : State} (hardware : s.view = .hardware) (h : step s = .next t) :
    t.view = .hardware ∧ t.flt = none := by
  obtain ⟨sound, ⟨noFault, -, -, -, -, -, -, view⟩ | ⟨reason, checked, -⟩ | ⟨-, rfl⟩⟩ := stepMovesOrMarks s t h
  · exact ⟨view.trans hardware, noFault⟩
  · simp [hardware] at checked
  · exact ⟨hardware, sound⟩

/-- Settles O44: every sound state has a step, and a step of the hardware raises no fault. -/
theorem hardwareNeverStops : Obligations.HardwareNeverStops := by
  refine ⟨⟨rfl, rfl⟩, fun s hardware sound => ?_, fun s => exists_step_of_sound (s := s.asHardware) rfl⟩
  obtain ⟨t, stepped⟩ := exists_step_of_sound sound
  exact ⟨t, stepped, step_keeps_hardware hardware stepped⟩

end Sys2Proof.Machine
end

section
/-! Several instances side by side (60_exceptions.md R147): a move reads and writes its own place of the list alone, so
moves at different places commute. -/

namespace Sys2Proof.Machine

section
variable {α : Type} {move move' : α → Host.Outcome α Fault Refusal} {n m : Nat} {all a b : List α}

theorem onInstance_of_none (vacant : all[n]? = none) : onInstance move n all = .next all := by
  simp only [onInstance, vacant]

theorem onInstance_of_some {one one' : α} (place : all[n]? = some one) (moved : move one = .next one') :
    onInstance move n all = .next (all.set n one') := by
  simp only [onInstance, place, moved]

theorem onInstance_frame (h : onInstance move n all = .next a) :
    a.length = all.length ∧ (m ≠ n → a[m]? = all[m]?) := by
  obtain ⟨-, rfl⟩ | ⟨one, one', -, -, rfl⟩ := onInstance_next move n all a h
  · exact ⟨rfl, fun _ => rfl⟩
  · exact ⟨List.length_set, fun ne => List.getElem?_set_ne ne.symm⟩

/-- Each move finds its own place as it was before the other, and writes to different places commute. -/
theorem onInstance_comm (ne : m ≠ n) (h : onInstance move n all = .next a) (h' : onInstance move' m all = .next b) :
    ∃ c, onInstance move' m a = .next c ∧ onInstance move n b = .next c := by
  have keepsM : a[m]? = all[m]? := (onInstance_frame h).2 ne
  have keepsN : b[n]? = all[n]? := (onInstance_frame h').2 ne.symm
  obtain ⟨vacant, rfl⟩ | ⟨one, one', place, moved, rfl⟩ := onInstance_next move n all a h
  · exact ⟨b, h', onInstance_of_none (keepsN.trans vacant)⟩
  · obtain ⟨vacant', rfl⟩ | ⟨two, two', place', moved', rfl⟩ := onInstance_next move' m all b h'
    · exact ⟨_, onInstance_of_none (keepsM.trans vacant'), h⟩
    · refine ⟨_, onInstance_of_some (keepsM.trans place') moved', ?_⟩
      rw [onInstance_of_some (keepsN.trans place) moved, List.set_comm _ _ ne]

end

/-- Settles O58: the frame and the exchange of two moves hold for any move of one place, a step or an edge. -/
theorem instancesAreIndependent : Obligations.InstancesAreIndependent :=
  ⟨fun _ _ _ _ => onInstance_frame, fun _ _ _ _ _ => onInstance_frame, fun _ _ _ _ _ => onInstance_comm,
    fun _ _ _ _ _ _ _ => onInstance_comm⟩

end Sys2Proof.Machine
end

section
/-! The reset event and the stale DELTA: a reset takes a sound state to R161's registers, at the pins too, where it
abandons the command in the block, and SETSR leaves the DELTA of an earlier SETF (70_reset_and_hazards.md R160 to R162,
R164, R166). -/

namespace Sys2Proof.Machine

/-! ### The reset event (R160, R161) -/

theorem step_reset {s : State} (sound : s.flt = none) (item : s.nextItem = some .reset) :
    step s = .next s.resetRegisters.advance := by
  rw [step_of_reset s item]
  exact whileSound_sound s _ sound

/-- Settles O8: the patterns that a reset draws for FREQ, SR and DELTA are the unspecified values. -/
theorem resetEventEffect : Obligations.ResetEventEffect :=
  fun _ sound item => ⟨_, _, _, _, step_reset sound item⟩

/-- Settles O37: the machine right after reset is the start of an empty run. -/
theorem startIsConsistent : Obligations.StartIsConsistent :=
  ⟨start_consistent .hardware 0 .ramp [], start_consistent⟩

/-! ### A reset edge (R162) -/

/-- The core after a reset edge: one more item of the run, a reset, after the draws of the abandoned command. -/
def Block.resetCore (b : Block) : State :=
  (State.placeNext { b.core with draws := b.drawsMade } .reset).resetRegisters.advance

theorem extend_reset {b : Block} (sound : b.core.flt = none) :
    { b.core with draws := b.drawsMade }.extend .reset = .next b.resetCore :=
  step_reset sound (nextItem_placeNext _ .reset)

theorem edge_resets {b : Block} {h : HostPins} (sound : b.core.flt = none) (holds : hostHolds b.offer h = true)
    (rst : h.rst = true) :
    b.edge h = .next (b.after h b.resetCore (.recovering (Config.recovery b.core.inst b.edges - 1))) :=
  (edge_of_reset sound holds rst).trans (resetEdge_eq (extend_reset sound))

/-- Settles O49: in reset the host keeps the handshake by offering nothing, and the core goes on from the commands that
had finished, so the outcome of the abandoned one is not in it. -/
theorem resetAbandonsTheCommand : Obligations.ResetAbandonsTheCommand := by
  intro b h sound rst noOffer
  have holds : hostHolds b.offer h = true := (hostHolds_reset b.offer rst).mpr noOffer
  exact ⟨_, _, edge_resets sound holds rst, rfl, rfl, rfl, rfl, rfl, rfl, sound, rfl, rfl, rfl⟩

/-! ### The stale DELTA (R166) -/

section
variable {s : State}

/-- R86 as a postcondition: SR is written, and neither DELTA nor its mark is. -/
theorem exists_exec_setsr (rate : Word) (sound : s.flt = none) : ∃ t, exec (.setsr rate) s = .next t ∧ t.flt = none ∧
    t.sr = rate ∧ t.wrSr = true ∧ t.delta = s.delta ∧ t.wrDelta = s.wrDelta ∧ t.out = s.out :=
  ⟨_, setsrStoresTheRate.2 s rate sound, sound, rfl, rfl, rfl, rfl, rfl⟩

/-- R87 as a postcondition, in both views: DELTA is written from the SR that stands. -/
theorem exists_exec_setf (freq : Word) (sound : s.flt = none) (written : s.wrSr = true) :
    ∃ t, exec (.setf freq) s = .next t ∧ t.flt = none ∧ (fdiv freq s.sr).Gives t.delta ∧ t.wrDelta = true ∧
      t.out = s.out := by
  obtain ⟨d, n, gives, stepped⟩ := (setfRecomputesDelta.2 s freq sound).1 (.inr written)
  exact ⟨_, stepped, sound, gives, rfl, rfl⟩

end

/-- Settles O43: the first SETSR writes the SR that SETF divides by; the second replaces it and leaves DELTA, which is
still marked, as SETF left it. -/
theorem deltaGoesStale : Obligations.DeltaGoesStale := by
  intro s a f b sound
  obtain ⟨s₁, setA, sound₁, sr₁, wrSr₁, -, -, out₁⟩ := exists_exec_setsr a sound
  obtain ⟨s₂, setF, sound₂, gives, wrDelta₂, out₂⟩ := exists_exec_setf f sound₁ wrSr₁
  obtain ⟨s₃, setB, sound₃, sr₃, wrSr₃, delta₃, wrDelta₃, out₃⟩ := exists_exec_setsr b sound₂
  have out : s₃.out = s.out := out₃.trans (out₂.trans out₁)
  have readDelta := (rddEmitsDelta.2 s₃ sound₃).1 (.inr (wrDelta₃.trans wrDelta₂))
  have readRate := (rdsrEmitsSampleRate.2 s₃ sound₃).1 (.inr wrSr₃)
  exact ⟨s₁, s₂, s₃, _, _, s₂.delta, setA, setF, setB, sr₁ ▸ gives, delta₃, readDelta, by rw [out, delta₃], readRate,
    by rw [out, sr₃]⟩

end Sys2Proof.Machine
end
